-- ==== Sys2Proof/Word.lean ====
section
/-! DEFINITION. The two word types of the core: the byte (R8, R9) and the 16-bit command word (R70). -/

namespace Sys2Proof

/-- A byte, an unsigned number from 0 to 255 (R8); also the "character" of the source (R9). -/
abbrev Byte := BitVec 8

/-- A command word as written to `CMD` (R30, R70): a number, not a byte sequence (R53). -/
abbrev CmdWord := BitVec 16

end Sys2Proof
end

