-- ==== Sys2Proof/Syntax.lean ====
section
/-! DEFINITION. The 22 commands of the opcode table (R74), one constructor per row. An operand is the 8-bit `ARG` field (R72). -/

namespace Sys2Proof

/-- A command of the core. The formats are those of R71: K (`klen`), Z (none), R (`r`), X (`x`), N (`n`). -/
inductive Instr where
  /-- `SETKEY klen` (R120): offer a key. -/
  | setkey (klen : Byte)
  /-- `ENCB` (R161): forward transform of `ST`. -/
  | encb
  /-- `DECB` (R162): inverse transform of `ST`. -/
  | decb
  /-- `ENCM klen` (R176): encrypt the message in `IBUF`. -/
  | encm (klen : Byte)
  /-- `DECM klen` (R177): decrypt the message in `IBUF`. -/
  | decm (klen : Byte)
  /-- `CLRERR` (R195): clear `ERR`. -/
  | clrerr
  /-- `ARK r` (R136): add round key `r`; `r` is at most 10. -/
  | ark (r : Byte)
  /-- `SUBB` (R137): substitute bytes. -/
  | subb
  /-- `SHROW` (R138): shift rows. -/
  | shrow
  /-- `MIXC` (R139): mix each stored row. -/
  | mixc
  /-- `ISUBB` (R140): inverse substitute. -/
  | isubb
  /-- `ISHROW` (R141): inverse shift rows. -/
  | ishrow
  /-- `IMIXC` (R142): inverse mix. -/
  | imixc
  /-- `LSBOX x` (R100). -/
  | lsbox (x : Byte)
  /-- `LISBOX x` (R101). -/
  | lisbox (x : Byte)
  /-- `LMUL2 x` (R102). -/
  | lmul2 (x : Byte)
  /-- `LMUL3 x` (R103). -/
  | lmul3 (x : Byte)
  /-- `LMUL9 x` (R104). -/
  | lmul9 (x : Byte)
  /-- `LMUL11 x` (R105). -/
  | lmul11 (x : Byte)
  /-- `LMUL13 x` (R106). -/
  | lmul13 (x : Byte)
  /-- `LMUL14 x` (R107). -/
  | lmul14 (x : Byte)
  /-- `LRCON n` (R108); `n` is at most 9. -/
  | lrcon (n : Byte)
deriving DecidableEq, Repr

end Sys2Proof
end

