-- ==== Sys2Proof/WellFormed.lean ====
section
/-! DEFINITION. Which commands are well formed: the legal `ARG` of each format (R71). Formats Z, K and X leave nothing to check on
the term: Z has no operand, and K and X accept every byte. -/

namespace Sys2Proof

/-- A term stands for a legal command word: `ARK` takes `r` from 0 to 10, `LRCON` takes `n` from 0 to 9 (R71, R76 (c), (d)). -/
def Instr.wellFormed : Instr → Bool
  | .ark r => decide (r.toNat ≤ 10)
  | .lrcon n => decide (n.toNat ≤ 9)
  | .setkey _ | .encm _ | .decm _ => true
  | .encb | .decb | .clrerr => true
  | .subb | .shrow | .mixc | .isubb | .ishrow | .imixc => true
  | .lsbox _ | .lisbox _ | .lmul2 _ | .lmul3 _ | .lmul9 _ | .lmul11 _ | .lmul13 _ | .lmul14 _ => true

end Sys2Proof
end

