-- ==== Sys2Proof/Decode.lean ====
section
/-! DEFINITION. From command words to commands and back (R70 to R81): the decoder, total on every 16-bit word and without context
(R75), the encoder, the opcode table of R74 as data, and the pseudo-instructions of R81. -/

namespace Sys2Proof

/-- Why a word is illegal: the four groups of R76. -/
inductive IllegalWord where
  /-- R76 (a): `OP` is none of the 22 values of R74. -/
  | unassignedOp
  /-- R76 (b): format Z with a non-zero `ARG`. -/
  | argNotZero
  /-- R76 (c): `ARK` with `r` above 10. -/
  | roundKeyOutOfRange
  /-- R76 (d): `LRCON` with `n` above 9. -/
  | roundConstantOutOfRange
deriving DecidableEq, Repr

/-- What a command word selects (R75). -/
inductive Decoded where
  /-- A legal word: the command it encodes. -/
  | legal (i : Instr)
  /-- An illegal word (R76), with its group. -/
  | illegal (why : IllegalWord)
deriving DecidableEq, Repr

/-- The command of a legal word. -/
def Decoded.instr? : Decoded → Option Instr
  | .legal i => some i
  | .illegal _ => none

/-- `OP`, bits 15:8 (R70). -/
def opField (w : CmdWord) : Byte := w.extractLsb' 8 8

/-- `ARG`, bits 7:0, unsigned and unscaled (R70, R72). -/
def argField (w : CmdWord) : Byte := w.extractLsb' 0 8

/-- Format Z: only `ARG = 0` is accepted (R71). -/
def formatZ (arg : Byte) (i : Instr) : Decoded :=
  if arg.toNat = 0 then .legal i else .illegal .argNotZero

/-- Format K: every `ARG` is a `klen` (R71). -/
def formatK (arg : Byte) (i : Byte → Instr) : Decoded := .legal (i arg)

/-- Format X: every `ARG` is a byte to look up (R71). -/
def formatX (arg : Byte) (i : Byte → Instr) : Decoded := .legal (i arg)

/-- Format R: a round-key number from 0 to 10 (R71). -/
def formatR (arg : Byte) (i : Byte → Instr) : Decoded :=
  if arg.toNat ≤ 10 then .legal (i arg) else .illegal .roundKeyOutOfRange

/-- Format N: a round-constant index from 0 to 9 (R71). -/
def formatN (arg : Byte) (i : Byte → Instr) : Decoded :=
  if arg.toNat ≤ 9 then .legal (i arg) else .illegal .roundConstantOutOfRange

/-- The decoder: the procedure of R75 over the opcode map of R74. -/
def decode (w : CmdWord) : Decoded :=
  match (opField w).toNat with
  | 0x01 => formatK (argField w) .setkey
  | 0x02 => formatZ (argField w) .encb
  | 0x03 => formatZ (argField w) .decb
  | 0x04 => formatK (argField w) .encm
  | 0x05 => formatK (argField w) .decm
  | 0x06 => formatZ (argField w) .clrerr
  | 0x10 => formatR (argField w) .ark
  | 0x11 => formatZ (argField w) .subb
  | 0x12 => formatZ (argField w) .shrow
  | 0x13 => formatZ (argField w) .mixc
  | 0x14 => formatZ (argField w) .isubb
  | 0x15 => formatZ (argField w) .ishrow
  | 0x16 => formatZ (argField w) .imixc
  | 0x20 => formatX (argField w) .lsbox
  | 0x21 => formatX (argField w) .lisbox
  | 0x22 => formatX (argField w) .lmul2
  | 0x23 => formatX (argField w) .lmul3
  | 0x24 => formatX (argField w) .lmul9
  | 0x25 => formatX (argField w) .lmul11
  | 0x26 => formatX (argField w) .lmul13
  | 0x27 => formatX (argField w) .lmul14
  | 0x28 => formatN (argField w) .lrcon
  | _ => .illegal .unassignedOp

/-- The command word whose table bits are `w` (R53: a command word is a number, so there is no byte order to choose; log entry 15). -/
def tableWord (nbits w : Nat) : CmdWord := BitVec.ofNat 16 (w % 2 ^ nbits)

/-- The command the decoder reads from a table row's word. -/
def decodeTableWord (nbits w : Nat) : Option Instr := (decode (tableWord nbits w)).instr?

/-! ### The encoder -/

/-- The `OP` value of a command (R74). -/
def Instr.op : Instr → Byte
  | .setkey _ => 0x01
  | .encb => 0x02
  | .decb => 0x03
  | .encm _ => 0x04
  | .decm _ => 0x05
  | .clrerr => 0x06
  | .ark _ => 0x10
  | .subb => 0x11
  | .shrow => 0x12
  | .mixc => 0x13
  | .isubb => 0x14
  | .ishrow => 0x15
  | .imixc => 0x16
  | .lsbox _ => 0x20
  | .lisbox _ => 0x21
  | .lmul2 _ => 0x22
  | .lmul3 _ => 0x23
  | .lmul9 _ => 0x24
  | .lmul11 _ => 0x25
  | .lmul13 _ => 0x26
  | .lmul14 _ => 0x27
  | .lrcon _ => 0x28

/-- The `ARG` value of a command: its operand, or 0 in format Z (R71). -/
def Instr.arg : Instr → Byte
  | .setkey klen | .encm klen | .decm klen => klen
  | .ark r => r
  | .lsbox x | .lisbox x | .lmul2 x | .lmul3 x | .lmul9 x | .lmul11 x | .lmul13 x | .lmul14 x => x
  | .lrcon n => n
  | .encb | .decb | .clrerr | .subb | .shrow | .mixc | .isubb | .ishrow | .imixc => 0

/-- The assembled word `{OP, ARG}` (R80). -/
def encode (i : Instr) : CmdWord := i.op ++ i.arg

/-- The mnemonic of R74, as the assembler of R80 writes it. -/
def Instr.mnemonic : Instr → String
  | .setkey _ => "SETKEY"
  | .encb => "ENCB"
  | .decb => "DECB"
  | .encm _ => "ENCM"
  | .decm _ => "DECM"
  | .clrerr => "CLRERR"
  | .ark _ => "ARK"
  | .subb => "SUBB"
  | .shrow => "SHROW"
  | .mixc => "MIXC"
  | .isubb => "ISUBB"
  | .ishrow => "ISHROW"
  | .imixc => "IMIXC"
  | .lsbox _ => "LSBOX"
  | .lisbox _ => "LISBOX"
  | .lmul2 _ => "LMUL2"
  | .lmul3 _ => "LMUL3"
  | .lmul9 _ => "LMUL9"
  | .lmul11 _ => "LMUL11"
  | .lmul13 _ => "LMUL13"
  | .lmul14 _ => "LMUL14"
  | .lrcon _ => "LRCON"

/-! ### The opcode table of R74 as data, written apart from the decoder -/

/-- The five formats of R71. -/
inductive Format where
  | Z | K | R | X | N
deriving DecidableEq, Repr

/-- The `ARG` values a format accepts (R71, R75). -/
def Format.accepts (f : Format) (arg : Byte) : Bool :=
  match f with
  | .Z => decide (arg.toNat = 0)
  | .K => true
  | .R => decide (arg.toNat ≤ 10)
  | .X => true
  | .N => decide (arg.toNat ≤ 9)

/-- One row of R74's table. -/
structure OpRow where
  mnemonic : String
  format : Format
  matchBits : CmdWord
  mask : CmdWord
deriving DecidableEq, Repr

/-- "a word `w` selects the row when `w & mask = match` and its `ARG` is legal for the format" (R74). -/
def OpRow.selects (row : OpRow) (w : CmdWord) : Bool :=
  decide (w &&& row.mask = row.matchBits) && row.format.accepts (argField w)

/-- The 22 rows of R74. -/
def opcodeTable : List OpRow := [
  ⟨"SETKEY", .K, 0x0100, 0xFF00⟩,
  ⟨"ENCB", .Z, 0x0200, 0xFFFF⟩,
  ⟨"DECB", .Z, 0x0300, 0xFFFF⟩,
  ⟨"ENCM", .K, 0x0400, 0xFF00⟩,
  ⟨"DECM", .K, 0x0500, 0xFF00⟩,
  ⟨"CLRERR", .Z, 0x0600, 0xFFFF⟩,
  ⟨"ARK", .R, 0x1000, 0xFF00⟩,
  ⟨"SUBB", .Z, 0x1100, 0xFFFF⟩,
  ⟨"SHROW", .Z, 0x1200, 0xFFFF⟩,
  ⟨"MIXC", .Z, 0x1300, 0xFFFF⟩,
  ⟨"ISUBB", .Z, 0x1400, 0xFFFF⟩,
  ⟨"ISHROW", .Z, 0x1500, 0xFFFF⟩,
  ⟨"IMIXC", .Z, 0x1600, 0xFFFF⟩,
  ⟨"LSBOX", .X, 0x2000, 0xFF00⟩,
  ⟨"LISBOX", .X, 0x2100, 0xFF00⟩,
  ⟨"LMUL2", .X, 0x2200, 0xFF00⟩,
  ⟨"LMUL3", .X, 0x2300, 0xFF00⟩,
  ⟨"LMUL9", .X, 0x2400, 0xFF00⟩,
  ⟨"LMUL11", .X, 0x2500, 0xFF00⟩,
  ⟨"LMUL13", .X, 0x2600, 0xFF00⟩,
  ⟨"LMUL14", .X, 0x2700, 0xFF00⟩,
  ⟨"LRCON", .N, 0x2800, 0xFF00⟩]

/-! ### Pseudo-instructions (R81): none has an encoding of its own -/

/-- `FROUND r`: one full forward round (R81). -/
def fround (r : Byte) : List Instr := [.subb, .shrow, .mixc, .ark r]

/-- `FFINAL`: the final forward round (R81). -/
def ffinal : List Instr := [.subb, .shrow, .ark 10]

/-- `IFIRST`: the first inverse stage (R81). -/
def ifirst : List Instr := [.ark 10, .ishrow, .isubb]

/-- `IROUND r`: one full inverse round (R81). -/
def iround (r : Byte) : List Instr := [.ark r, .imixc, .ishrow, .isubb]

/-- The 40 step commands that R163 compares with `ENCB`. -/
def encbSteps : List Instr :=
  [.ark 0] ++ fround 1 ++ fround 2 ++ fround 3 ++ fround 4 ++ fround 5 ++ fround 6 ++ fround 7 ++ fround 8 ++ fround 9 ++ ffinal

/-- The 40 step commands that R163 compares with `DECB`. -/
def decbSteps : List Instr :=
  ifirst ++ iround 9 ++ iround 8 ++ iround 7 ++ iround 6 ++ iround 5 ++ iround 4 ++ iround 3 ++ iround 2 ++ iround 1 ++ [.ark 0]

end Sys2Proof
end

