-- ==== Sys2Proof/Config.lean ====
section
/-! DEFINITION. The free values: what the spec calls "unspecified" (R10: "any value of that width; a model draws it freely
and no claim may depend on it"). -/

namespace Sys2Proof

/-- Which piece of state a free byte is drawn for; a separate source each, so that no two of them are related. -/
inductive FreeSource where
  /-- `ST` after a message command or a reset event (R21, U5). -/
  | st
  /-- `KIN` after a reset event (R23, U6). -/
  | kin
  /-- `LQ` after a reset event (R26, U7). -/
  | lq
  /-- A byte of `IBUF` that nothing has written since reset (R29, U8). -/
  | ibuf
  /-- A byte of `OBUF` past `OLEN`, or before the first message command (R29, U8). -/
  | obuf
deriving DecidableEq, Repr

/-- The free byte of a source at draw number `draw` and index `k` (log entry 6). It has no body: nothing can be proved of its value. -/
opaque Config.freeByte (source : FreeSource) (draw k : Nat) : Byte

end Sys2Proof
end

