-- ==== Sys2Proof/Machine/State.lean ====
section
/-! DEFINITION. The state of the core as plain data: everything R20 lists, and the model's own inputs (the queue of host actions,
log entry 1) and free-value counters (log entries 5, 6). Also the reasons a step can stop, and the state after reset. -/

namespace Sys2Proof.Machine

/-- One stored row of a block, or one row of the key schedule: four bytes, columns 0 to 3 (R11). -/
structure Row where
  c0 : Byte
  c1 : Byte
  c2 : Byte
  c3 : Byte
deriving DecidableEq, Repr

/-- A 4×4 matrix of bytes by stored rows (R11, R21): the state block, a round key's key block, or the 16 bytes of `KIN`. -/
structure Block where
  r0 : Row
  r1 : Row
  r2 : Row
  r3 : Row
deriving DecidableEq, Repr

/-- The key schedule: 44 rows of 4 bytes, held as the key blocks of rounds 0 to 10; `KB_r` is rows `4r` to `4r+3` (R11, R22). -/
structure Schedule where
  k0 : Block
  k1 : Block
  k2 : Block
  k3 : Block
  k4 : Block
  k5 : Block
  k6 : Block
  k7 : Block
  k8 : Block
  k9 : Block
  k10 : Block
deriving DecidableEq, Repr

/-- A message buffer: the bytes written so far by index, strictly rising, and the draw that the unwritten bytes come from (R29, log
entries 5, 6). An unlisted index holds no written value. -/
structure Memory where
  cells : List Host.Cell
  fill : Nat
deriving DecidableEq, Repr

/-- The bits of `ERR` (R25, R203). -/
inductive ErrFlag where
  /-- Bit 0: a key shorter than 16 bytes was offered (R204). -/
  | invkey
  /-- Bit 1: a command that reads `W` ran with no key configured (R205). -/
  | uninit
  /-- Bit 2: `DECM` ran with a length that is no multiple of 16 (R206). -/
  | misalign
  /-- Bit 3: an illegal command word was written (R207). -/
  | illcmd
deriving DecidableEq, Repr

/-- The locations of R51 that the host can name; the tables are reached through lookup commands only (R40). -/
inductive Cell where
  /-- `ST[i][j]`. -/
  | st (i j : Fin 4)
  /-- `W[n][j]`. -/
  | w (n : Fin 44) (j : Fin 4)
  /-- `KIN[k]`. -/
  | kin (k : Fin 16)
  /-- `KCFG`. -/
  | kcfg
  /-- `ERR`. -/
  | err
  /-- `LQ`. -/
  | lq
  /-- `ILEN`. -/
  | ilen
  /-- `OLEN`. -/
  | olen
  /-- `IBUF[a]`. -/
  | ibuf (a : Nat)
  /-- `OBUF[a]`. -/
  | obuf (a : Nat)
  /-- `CMD`, the write-only command port (R30). -/
  | cmd
deriving DecidableEq, Repr

/-- What the host does between commands (R40, R233) and the reset event (R225). -/
inductive HostAction where
  /-- Write a word to `CMD`, which runs the command it encodes (R30). -/
  | command (word : CmdWord)
  /-- Write the number `v` to a location; at `CMD` this is the command write again. -/
  | write (c : Cell) (v : Nat)
  /-- Read a location. -/
  | read (c : Cell)
  /-- Reset, from outside the core (R225). -/
  | reset
deriving DecidableEq, Repr

/-- The state of the core (R20), and the model's own fields `port` and `draws`. -/
structure State where
  /-- `ST`, the state block (R21). -/
  st : Block
  /-- `W`, the key schedule (R22). -/
  w : Schedule
  /-- `KIN`, the key input buffer, byte `k` at row `k / 4`, column `k % 4` (R23). -/
  kin : Block
  /-- `KCFG`: a key has been accepted since reset (R24). -/
  kcfg : Bool
  /-- `ERR`, the sticky flags, read whole by the host (R25). -/
  err : Byte
  /-- `LQ`, the result of the last table lookup (R26). -/
  lq : Byte
  /-- `ILEN`, the length of the input message (R28). -/
  ilen : Nat
  /-- `OLEN`, the length of the output message (R28). -/
  olen : Nat
  /-- `IBUF`, the input message (R29). -/
  ibuf : Memory
  /-- `OBUF`, the output message (R29). -/
  obuf : Memory
  /-- The model's own: the host actions not yet taken, the next one first (log entry 1). -/
  port : List HostAction
  /-- The model's own: the number of the next draw of free values (log entry 6). -/
  draws : Nat
deriving DecidableEq, Repr

/-- Reasons for a fault: there are none. "A model therefore has no fault outcome for any command: the step function is total" (R200). -/
inductive Fault where
deriving DecidableEq, Repr

/-- Reasons for a refusal. No command of the core is refused; the last three are host actions that the spec gives no meaning. -/
inductive Refusal where
  /-- Raised by an arm of `exec` whose instruction has no meaning yet (none is left); safe. -/
  | notModelled (mnemonic : String)
  /-- Raised by a host write to a location the host may not write: `W`, `KCFG`, `ERR`, `LQ`, `OLEN`, `OBUF` (R40, U14: "refuse"); safe. -/
  | hostWriteReadOnly
  /-- Raised by a host write of a number wider than the location it goes to (R9, U13: "refuse"); safe. -/
  | valueTooWide
  /-- Raised by a host read of `CMD`, which "holds no value and cannot be read" (R30); safe. -/
  | commandPortRead
deriving DecidableEq, Repr

/-- A row of four zero bytes. -/
def Row.zero : Row := ⟨0, 0, 0, 0⟩

/-- A block of sixteen zero bytes. -/
def Block.zero : Block := ⟨Row.zero, Row.zero, Row.zero, Row.zero⟩

/-- The never-configured schedule: 176 zero bytes (R22, R226). -/
def Schedule.zero : Schedule :=
  ⟨Block.zero, Block.zero, Block.zero, Block.zero, Block.zero, Block.zero, Block.zero, Block.zero, Block.zero, Block.zero, Block.zero⟩

/-- The core right after reset (R225). The spec gives `W`, `KCFG`, `ERR`, `ILEN`, `OLEN`; DESIGN CHOICE: `ST`, `KIN`, `LQ`, which it
leaves unspecified, are zero here (log entries 2, 3, 4); no byte of a buffer is written (log entry 5); no host action is pending (log
entry 1) and the counters start at 0 and 1 (log entry 6). -/
def State.reset : State where
  st := Block.zero
  w := Schedule.zero
  kin := Block.zero
  kcfg := false
  err := 0x00
  lq := 0x00
  ilen := 0
  olen := 0
  ibuf := ⟨[], 0⟩
  obuf := ⟨[], 0⟩
  port := []
  draws := 1

end Sys2Proof.Machine
end

