-- ==== Sys2Proof/Machine/Flags.lean ====
section
/-! DEFINITION. The bits of `ERR` and the conditions that flag them (R25, R203 to R210). There are no condition codes (R35). -/

namespace Sys2Proof.Machine

/-- The bit of `ERR` a flag is (R25; the cause code of R203). -/
def ErrFlag.bit : ErrFlag → Nat
  | .invkey => 0
  | .uninit => 1
  | .misalign => 2
  | .illcmd => 3

/-- The mask of a flag (R203). -/
def ErrFlag.mask (f : ErrFlag) : Byte := 1#8 <<< f.bit

/-- `ERR.X` as the host reads it in `ERR`. -/
def errHas (err : Byte) (f : ErrFlag) : Bool := err.getLsbD f.bit

/-- `ERR.X <- 1`, sticky: no other bit changes (R10, R203). -/
def errSet (err : Byte) (f : ErrFlag) : Byte := err ||| f.mask

/-- The reserved field `ERR[7:4]`, which reads as 0 (R25, U11). -/
def errReserved (err : Byte) : BitVec 4 := err.extractLsb' 4 4

/-- The condition of `UNINIT` in a command that reads `W` (R205): no key is configured. -/
def uninitCondition (s : State) : Bool := !s.kcfg

/-- The condition of `MISALIGN` in `DECM` (R206): `ILEN mod 16 ≠ 0`. -/
def misalignCondition (s : State) : Bool := decide (s.ilen % 16 ≠ 0)

end Sys2Proof.Machine
end

