-- ==== Sys2Proof/Machine/Operands.lean ====
section
/-! DEFINITION. How a command reads its `ARG` (R71 to R73): every operand form there is. -/

namespace Sys2Proof.Machine

/-- The offered key is valid: "shorter than 16" fails (R73, R120, R130 (a)). -/
def keyValid (klen : Byte) : Bool := decide (16 ≤ klen.toNat)

/-- No key is offered to a message command (R73, R127). -/
def keyAbsent (klen : Byte) : Bool := decide (klen.toNat = 0)

/-- Format R's operand as a round number; none above 10 (R71). -/
def roundNumber? (r : Byte) : Option (Fin 11) :=
  if h : r.toNat < 11 then some ⟨r.toNat, h⟩ else none

/-- Format N's operand as an index of `RCON`; none above 9 (R71). -/
def rconIndex? (n : Byte) : Option (Fin 10) :=
  if h : n.toNat < 10 then some ⟨n.toNat, h⟩ else none

/-- The `klen` the host passes for a key of `length` bytes: saturated at 255 (R73, U16). -/
def klenOf (length : Nat) : Byte := BitVec.ofNat 8 (min length 255)

/-- The schedule row that state row `i` is paired with in round `r`: `4r + i` (R136). -/
def scheduleRow (r : Fin 11) (i : Fin 4) : Fin 44 := ⟨4 * r.val + i.val, by omega⟩

/-- The row of byte number `k` of a block: `k div 4` (R50). -/
def byteRow (k : Fin 16) : Fin 4 := ⟨k.val / 4, by omega⟩

/-- The column of byte number `k` of a block: `k mod 4` (R50). -/
def byteColumn (k : Fin 16) : Fin 4 := ⟨k.val % 4, by omega⟩

/-- The byte number of cell `(i, j)`: `4i + j` (R11, R50). -/
def byteNumber (i j : Fin 4) : Fin 16 := ⟨4 * i.val + j.val, by omega⟩

end Sys2Proof.Machine
end

