-- ==== Sys2Proof/Machine/Ops.lean ====
section
/-! DEFINITION. The named operations over matrices, buffers and registers, and the one shared event of the core: recording an error
condition. The core takes no exception and returns from none (R200, R211, R212): no state is saved, no mode changes, nothing is
diverted; where an ISA would raise, the spec writes `flag ERR.X` and goes on (R10). `State.flag` is that operation. -/

namespace Sys2Proof.Machine

/-! ### Matrices -/

/-- Column `j` of a row. -/
def Row.get (r : Row) : Fin 4 → Byte
  | 0 => r.c0
  | 1 => r.c1
  | 2 => r.c2
  | 3 => r.c3

/-- The row whose column `j` is `f j`. -/
def Row.ofFn (f : Fin 4 → Byte) : Row := ⟨f 0, f 1, f 2, f 3⟩

/-- Row `i` of a matrix: the four bytes `M[i][0..3]` (R11). -/
def Block.row (m : Block) : Fin 4 → Row
  | 0 => m.r0
  | 1 => m.r1
  | 2 => m.r2
  | 3 => m.r3

/-- `M[i][j]`. -/
def Block.get (m : Block) (i j : Fin 4) : Byte := (m.row i).get j

/-- The matrix whose row `i` is `f i`. -/
def Block.ofRows (f : Fin 4 → Row) : Block := ⟨f 0, f 1, f 2, f 3⟩

/-- The matrix whose cell `(i, j)` is `f i j`. -/
def Block.ofFn (f : Fin 4 → Fin 4 → Byte) : Block := Block.ofRows fun i => Row.ofFn (f i)

/-- `M[i][j] <- v`. -/
def Block.set (m : Block) (i j : Fin 4) (v : Byte) : Block :=
  Block.ofFn fun i' j' => if i' = i ∧ j' = j then v else m.get i' j'

/-- Byte number `k` of a block: `FromMatrix(M)[k] = M[k div 4][k mod 4]` (R50). -/
def Block.byte (m : Block) (k : Fin 16) : Byte := m.get (byteRow k) (byteColumn k)

/-- `ToMatrix(b)[i][j] = b[4i + j]` (R50). -/
def toMatrix (b : Fin 16 → Byte) : Block := Block.ofFn fun i j => b (byteNumber i j)

/-- `FromMatrix(M)`: the 16 bytes of a block in row-major order (R50). -/
def fromMatrix (m : Block) : List Byte :=
  [m.byte 0, m.byte 1, m.byte 2, m.byte 3, m.byte 4, m.byte 5, m.byte 6, m.byte 7,
   m.byte 8, m.byte 9, m.byte 10, m.byte 11, m.byte 12, m.byte 13, m.byte 14, m.byte 15]

/-- The key block of round `r`, `KB_r` (R11). -/
def Schedule.key (w : Schedule) : Fin 11 → Block
  | 0 => w.k0
  | 1 => w.k1
  | 2 => w.k2
  | 3 => w.k3
  | 4 => w.k4
  | 5 => w.k5
  | 6 => w.k6
  | 7 => w.k7
  | 8 => w.k8
  | 9 => w.k9
  | 10 => w.k10

/-- `W[n][j]`: row `n` is row `n mod 4` of the key block of round `n div 4` (R11, R22). -/
def Schedule.byte (w : Schedule) (n : Fin 44) (j : Fin 4) : Byte :=
  (w.key ⟨n.val / 4, by omega⟩).get ⟨n.val % 4, by omega⟩ j

/-! ### Buffers -/

/-- The indices of a cell list rise strictly. -/
def cellsRising : List Host.Cell → Bool
  | [] => true
  | [_] => true
  | c :: d :: rest => decide (c.1 < d.1) && cellsRising (d :: rest)

/-- The canonical form of a buffer: one entry per written index, indices strictly rising. An unlisted index holds no value, so no entry
can equal what an unlisted index holds. -/
def Memory.wf (m : Memory) : Bool := cellsRising m.cells

/-- The value listed for an index. -/
def lookupCell (a : Nat) : List Host.Cell → Option Byte
  | [] => none
  | c :: rest => if c.1 = a then some c.2 else lookupCell a rest

/-- The cell list with index `a` holding `v`, in place. -/
def insertCell (a : Nat) (v : Byte) : List Host.Cell → List Host.Cell
  | [] => [(a, v)]
  | c :: rest =>
    if a < c.1 then (a, v) :: c :: rest
    else if a = c.1 then (a, v) :: rest
    else c :: insertCell a v rest

/-- `MemRead` of one byte (R10, R55): the byte written, or the free byte of an index nothing has written (R29, log entry 5). -/
def Memory.read (m : Memory) (source : FreeSource) (a : Nat) : Byte :=
  match lookupCell a m.cells with
  | some v => v
  | none => Config.freeByte source m.fill a

/-- `MemWrite` of one byte (R10, R55). -/
def Memory.write (m : Memory) (a : Nat) (v : Byte) : Memory := { m with cells := insertCell a v m.cells }

/-- The cells that hold a byte list from index `a` upward. -/
def cellsFrom (a : Nat) : List Byte → List Host.Cell
  | [] => []
  | v :: rest => (a, v) :: cellsFrom (a + 1) rest

/-- A buffer that holds a byte list from index 0 and is unspecified past it (R29, R174, R175). -/
def Memory.holding (bytes : List Byte) (fill : Nat) : Memory := ⟨cellsFrom 0 bytes, fill⟩

/-- `IBUF[a]`. -/
def State.readIbuf (s : State) (a : Nat) : Byte := s.ibuf.read .ibuf a

/-- `OBUF[a]`. -/
def State.readObuf (s : State) (a : Nat) : Byte := s.obuf.read .obuf a

/-! ### The shared event -/

/-- `flag ERR.X`: set one sticky bit and nothing else (R10, R203). -/
def State.flag (s : State) (f : ErrFlag) : State := { s with err := errSet s.err f }

/-- `if c then flag ERR.X`. -/
def State.flagWhen (s : State) (c : Bool) (f : ErrFlag) : State := if c then s.flag f else s

/-- `if KCFG = 0 then flag ERR.UNINIT`, where a command starts using `W` (R205). -/
def State.flagUninit (s : State) : State := s.flagWhen (uninitCondition s) .uninit

/-- `if ILEN mod 16 ≠ 0 then flag ERR.MISALIGN` (R206). -/
def State.flagMisalign (s : State) : State := s.flagWhen (misalignCondition s) .misalign

/-- The whole effect of an illegal command word (R78, R207). -/
def State.illegalCommand (s : State) : State := s.flag .illcmd

/-! ### Free values -/

/-- Sixteen free bytes of one source and one draw. -/
def freeBlock (source : FreeSource) (draw : Nat) : Block :=
  Block.ofFn fun i j => Config.freeByte source draw (byteNumber i j).val

/-- The end of a message command: the output goes to `OBUF` from index 0, `OLEN` is its length, `OBUF` past it and `ST` are unspecified
(R21, R29, R174, R175). -/
def State.storeMessage (s : State) (out : List Byte) : State :=
  { s with
    obuf := Memory.holding out s.draws
    olen := out.length
    st := freeBlock .st s.draws
    draws := s.draws + 1 }

/-- The reset event (R225): every register the spec gives a reset value takes it, the rest are unspecified, hence drawn (log entry 7).
The pending host actions are the host's and stay. -/
def State.resetEvent (s : State) : State :=
  { State.reset with
    st := freeBlock .st s.draws
    kin := freeBlock .kin s.draws
    lq := Config.freeByte .lq s.draws 0
    ibuf := ⟨[], s.draws⟩
    obuf := ⟨[], s.draws⟩
    port := s.port
    draws := s.draws + 1 }

/-! ### Host access (R40) -/

/-- The host may write this location (R30, R40). -/
def Cell.hostWritable : Cell → Bool
  | .st _ _ => true
  | .w _ _ => false
  | .kin _ => true
  | .kcfg => false
  | .err => false
  | .lq => false
  | .ilen => true
  | .olen => false
  | .ibuf _ => true
  | .obuf _ => false
  | .cmd => true

/-- The values a location holds: one byte, or a natural number in `ILEN` and `OLEN` (R28), or one bit in `KCFG` (R24). -/
def Cell.fits (v : Nat) : Cell → Bool
  | .st _ _ => decide (v < 256)
  | .w _ _ => decide (v < 256)
  | .kin _ => decide (v < 256)
  | .kcfg => decide (v < 2)
  | .err => decide (v < 256)
  | .lq => decide (v < 256)
  | .ilen => true
  | .olen => true
  | .ibuf _ => decide (v < 256)
  | .obuf _ => decide (v < 256)
  | .cmd => decide (v < 65536)

/-- What the host reads at a location; nothing at `CMD` (R30, R40). -/
def State.hostRead (s : State) : Cell → Option Nat
  | .st i j => some (s.st.get i j).toNat
  | .w n j => some (s.w.byte n j).toNat
  | .kin k => some (s.kin.byte k).toNat
  | .kcfg => some s.kcfg.toNat
  | .err => some s.err.toNat
  | .lq => some s.lq.toNat
  | .ilen => some s.ilen
  | .olen => some s.olen
  | .ibuf a => some (s.readIbuf a).toNat
  | .obuf a => some (s.readObuf a).toNat
  | .cmd => none

/-- The effect of a host write to a data location the host may write (R40); no other location changes. -/
def State.hostWrite (s : State) (v : Nat) : Cell → State
  | .st i j => { s with st := s.st.set i j (BitVec.ofNat 8 v) }
  | .kin k => { s with kin := s.kin.set (byteRow k) (byteColumn k) (BitVec.ofNat 8 v) }
  | .ilen => { s with ilen := v }
  | .ibuf a => { s with ibuf := s.ibuf.write a (BitVec.ofNat 8 v) }
  | .w _ _ => s
  | .kcfg => s
  | .err => s
  | .lq => s
  | .olen => s
  | .obuf _ => s
  | .cmd => s

end Sys2Proof.Machine
end

