-- ==== Sys2Proof/Machine/Tables.lean ====
section
/-! DEFINITION. The Galois-field tables (R31, R90 to R98): constants, held as the spec lists them in `40_gf_tables.md` section 3, and
beside them the constructions of R91 to R97 that the spec generates them from and the properties of R98. The commands use the tables;
that each table agrees with its construction and has its properties is stated among the obligations. -/

namespace Sys2Proof.Machine

/-- Entry `T[x]` of a listed table: row `x[7:4]`, column `x[3:0]`. A row is written as one number, its 16 entries from left to right. -/
def tableEntry (rows : List Nat) (x : Byte) : Byte :=
  BitVec.ofNat 8 (rows.getD (x.toNat / 16) 0 >>> (8 * (15 - x.toNat % 16)))

/-- The listing of `SBOX` (section 3, R94). -/
def sboxRows : List Nat := [
  0x637C777BF26B6FC53001672BFED7AB76,
  0xCA82C97DFA5947F0ADD4A2AF9CA472C0,
  0xB7FD9326363FF7CC34A5E5F171D83115,
  0x04C723C31896059A071280E2EB27B275,
  0x09832C1A1B6E5AA0523BD6B329E32F84,
  0x53D100ED20FCB15B6ACBBE394A4C58CF,
  0xD0EFAAFB434D338545F9027F503C9FA8,
  0x51A3408F929D38F5BCB6DA2110FFF3D2,
  0xCD0C13EC5F974417C4A77E3D645D1973,
  0x60814FDC222A908846EEB814DE5E0BDB,
  0xE0323A0A4906245CC2D3AC629195E479,
  0xE7C8376D8DD54EA96C56F4EA657AAE08,
  0xBA78252E1CA6B4C6E8DD741F4BBD8B8A,
  0x703EB5664803F60E613557B986C11D9E,
  0xE1F8981169D98E949B1E87E9CE5528DF,
  0x8CA1890DBFE6426841992D0FB054BB16]

/-- `SBOX[x]` (R94; its properties R98 (a), (d)). -/
def sbox (x : Byte) : Byte := tableEntry sboxRows x

/-- The listing of `INV_SBOX` (section 3, R95). -/
def invSboxRows : List Nat := [
  0x52096AD53036A538BF40A39E81F3D7FB,
  0x7CE339829B2FFF87348E4344C4DEE9CB,
  0x547B9432A6C2233DEE4C950B42FAC34E,
  0x082EA16628D924B2765BA2496D8BD125,
  0x72F8F66486689816D4A45CCC5D65B692,
  0x6C704850FDEDB9DA5E154657A78D9D84,
  0x90D8AB008CBCD30AF7E45805B8B34506,
  0xD02C1E8FCA3F0F02C1AFBD0301138A6B,
  0x3A9111414F67DCEA97F2CFCEF0B4E673,
  0x96AC7422E7AD3585E2F937E81C75DF6E,
  0x47F11A711D29C5896FB7620EAA18BE1B,
  0xFC563E4BC6D279209ADBC0FE78CD5AF4,
  0x1FDDA8338807C731B11210592780EC5F,
  0x60517FA919B54A0D2DE57A9F93C99CEF,
  0xA0E03B4DAE2AF5B0C8EBBB3C83539961,
  0x172B047EBA77D626E169146355210C7D]

/-- `INV_SBOX[x]` (R95; its property R98 (a)). -/
def invSbox (x : Byte) : Byte := tableEntry invSboxRows x

/-- The listing of `MUL2` (section 3, R97). -/
def mul2Rows : List Nat := [
  0x00020406080A0C0E10121416181A1C1E,
  0x20222426282A2C2E30323436383A3C3E,
  0x40424446484A4C4E50525456585A5C5E,
  0x60626466686A6C6E70727476787A7C7E,
  0x80828486888A8C8E90929496989A9C9E,
  0xA0A2A4A6A8AAACAEB0B2B4B6B8BABCBE,
  0xC0C2C4C6C8CACCCED0D2D4D6D8DADCDE,
  0xE0E2E4E6E8EAECEEF0F2F4F6F8FAFCFE,
  0x1B191F1D131117150B090F0D03010705,
  0x3B393F3D333137352B292F2D23212725,
  0x5B595F5D535157554B494F4D43414745,
  0x7B797F7D737177756B696F6D63616765,
  0x9B999F9D939197958B898F8D83818785,
  0xBBB9BFBDB3B1B7B5ABA9AFADA3A1A7A5,
  0xDBD9DFDDD3D1D7D5CBC9CFCDC3C1C7C5,
  0xFBF9FFFDF3F1F7F5EBE9EFEDE3E1E7E5]

/-- `MUL2[x]` (R97; its properties R98 (b), (c), (e)). -/
def mul2 (x : Byte) : Byte := tableEntry mul2Rows x

/-- The listing of `MUL3` (section 3, R97). -/
def mul3Rows : List Nat := [
  0x000306050C0F0A09181B1E1D14171211,
  0x303336353C3F3A39282B2E2D24272221,
  0x606366656C6F6A69787B7E7D74777271,
  0x505356555C5F5A59484B4E4D44474241,
  0xC0C3C6C5CCCFCAC9D8DBDEDDD4D7D2D1,
  0xF0F3F6F5FCFFFAF9E8EBEEEDE4E7E2E1,
  0xA0A3A6A5ACAFAAA9B8BBBEBDB4B7B2B1,
  0x909396959C9F9A99888B8E8D84878281,
  0x9B989D9E97949192838085868F8C898A,
  0xABA8ADAEA7A4A1A2B3B0B5B6BFBCB9BA,
  0xFBF8FDFEF7F4F1F2E3E0E5E6EFECE9EA,
  0xCBC8CDCEC7C4C1C2D3D0D5D6DFDCD9DA,
  0x5B585D5E57545152434045464F4C494A,
  0x6B686D6E67646162737075767F7C797A,
  0x3B383D3E37343132232025262F2C292A,
  0x0B080D0E07040102131015161F1C191A]

/-- `MUL3[x]` (R97; its properties R98 (b), (c), (e)). -/
def mul3 (x : Byte) : Byte := tableEntry mul3Rows x

/-- The listing of `MUL9` (section 3, R97). -/
def mul9Rows : List Nat := [
  0x0009121B242D363F48415A536C657E77,
  0x9099828BB4BDA6AFD8D1CAC3FCF5EEE7,
  0x3B3229201F160D04737A6168575E454C,
  0xABA2B9B08F869D94E3EAF1F8C7CED5DC,
  0x767F646D525B40493E372C251A130801,
  0xE6EFF4FDC2CBD0D9AEA7BCB58A839891,
  0x4D445F5669607B72050C171E2128333A,
  0xDDD4CFC6F9F0EBE2959C878EB1B8A3AA,
  0xECE5FEF7C8C1DAD3A4ADB6BF8089929B,
  0x7C756E6758514A43343D262F1019020B,
  0xD7DEC5CCF3FAE1E89F968D84BBB2A9A0,
  0x474E555C636A71780F061D142B223930,
  0x9A938881BEB7ACA5D2DBC0C9F6FFE4ED,
  0x0A0318112E273C35424B5059666F747D,
  0xA1A8B3BA858C979EE9E0FBF2CDC4DFD6,
  0x3138232A151C070E79706B625D544F46]

/-- `MUL9[x]` (R97; its properties R98 (b), (c), (e)). -/
def mul9 (x : Byte) : Byte := tableEntry mul9Rows x

/-- The listing of `MUL11` (section 3, R97). -/
def mul11Rows : List Nat := [
  0x000B161D2C273A3158534E45747F6269,
  0xB0BBA6AD9C978A81E8E3FEF5C4CFD2D9,
  0x7B706D66575C414A2328353E0F041912,
  0xCBC0DDD6E7ECF1FA9398858EBFB4A9A2,
  0xF6FDE0EBDAD1CCC7AEA5B8B38289949F,
  0x464D505B6A617C771E1508033239242F,
  0x8D869B90A1AAB7BCD5DEC3C8F9F2EFE4,
  0x3D362B20111A070C656E737849425F54,
  0xF7FCE1EADBD0CDC6AFA4B9B28388959E,
  0x474C515A6B607D761F1409023338252E,
  0x8C879A91A0ABB6BDD4DFC2C9F8F3EEE5,
  0x3C372A21101B060D646F727948435E55,
  0x010A171C2D263B3059524F44757E6368,
  0xB1BAA7AC9D968B80E9E2FFF4C5CED3D8,
  0x7A716C67565D404B2229343F0E051813,
  0xCAC1DCD7E6EDF0FB9299848FBEB5A8A3]

/-- `MUL11[x]` (R97; its properties R98 (b), (c), (e)). -/
def mul11 (x : Byte) : Byte := tableEntry mul11Rows x

/-- The listing of `MUL13` (section 3, R97). -/
def mul13Rows : List Nat := [
  0x000D1A1734392E236865727F5C51464B,
  0xD0DDCAC7E4E9FEF3B8B5A2AF8C81969B,
  0xBBB6A1AC8F829598D3DEC9C4E7EAFDF0,
  0x6B66717C5F524548030E1914373A2D20,
  0x6D60777A5954434E05081F12313C2B26,
  0xBDB0A7AA8984939ED5D8CFC2E1ECFBF6,
  0xD6DBCCC1E2EFF8F5BEB3A4A98A87909D,
  0x060B1C11323F28256E6374795A57404D,
  0xDAD7C0CDEEE3F4F9B2BFA8A5868B9C91,
  0x0A07101D3E332429626F7875565B4C41,
  0x616C7B7655584F420904131E3D30272A,
  0xB1BCABA685889F92D9D4C3CEEDE0F7FA,
  0xB7BAADA0838E9994DFD2C5C8EBE6F1FC,
  0x676A7D70535E49440F0215183B36212C,
  0x0C01161B3835222F64697E73505D4A47,
  0xDCD1C6CBE8E5F2FFB4B9AEA3808D9A97]

/-- `MUL13[x]` (R97; its properties R98 (b), (c), (e)). -/
def mul13 (x : Byte) : Byte := tableEntry mul13Rows x

/-- The listing of `MUL14` (section 3, R97). -/
def mul14Rows : List Nat := [
  0x000E1C123836242A707E6C624846545A,
  0xE0EEFCF2D8D6C4CA909E8C82A8A6B4BA,
  0xDBD5C7C9E3EDFFF1ABA5B7B9939D8F81,
  0x3B352729030D1F114B455759737D6F61,
  0xADA3B1BF959B8987DDD3C1CFE5EBF9F7,
  0x4D43515F757B69673D33212F050B1917,
  0x76786A644E40525C06081A143E30222C,
  0x96988A84AEA0B2BCE6E8FAF4DED0C2CC,
  0x414F5D537977656B313F2D230907151B,
  0xA1AFBDB39997858BD1DFCDC3E9E7F5FB,
  0x9A948688A2ACBEB0EAE4F6F8D2DCCEC0,
  0x7A746668424C5E500A041618323C2E20,
  0xECE2F0FED4DAC8C69C92808EA4AAB8B6,
  0x0C02101E343A28267C72606E444A5856,
  0x37392B250F01131D47495B557F71636D,
  0xD7D9CBC5EFE1F3FDA7A9BBB59F91838D]

/-- `MUL14[x]` (R97; its properties R98 (b), (c), (e)). -/
def mul14 (x : Byte) : Byte := tableEntry mul14Rows x

/-- The listing of `RCON`, numbered from 0 (R96). -/
def rconList : List Byte := [0x01, 0x02, 0x04, 0x08, 0x10, 0x20, 0x40, 0x80, 0x1B, 0x36]

/-- `RCON[n]`; expansion round `r` uses `RCON[r-1]` (R96). -/
def rcon (n : Fin 10) : Byte := rconList.getD n.val 0

/-! ### Constructions -/

/-- `xtime(a) = ((a << 1) mod 256) ^ (0x1B if a ≥ 0x80 else 0x00)` (R91). -/
def xtime (a : Byte) : Byte := (a <<< 1) ^^^ (if 0x80 ≤ a.toNat then 0x1B else 0x00)

/-- The loop of R92, `n` more times, from the running product `p` and the shifted `a` and `b`. -/
def gmulLoop : Nat → Byte → Byte → Byte → Byte
  | 0, p, _, _ => p
  | n + 1, p, a, b => gmulLoop n (if b.getLsbD 0 then p ^^^ a else p) (xtime a) (b >>> 1)

/-- `gmul(a, b)`, the product of two bytes in the field (R92). -/
def gmul (a b : Byte) : Byte := gmulLoop 8 0 a b

/-- `b` is `ginv(a)`: the byte with `gmul(a, b) = 1`, and 0 for 0 (R93). -/
def isInverseOf (a b : Byte) : Prop := if a = 0 then b = 0 else gmul a b = 1

/-- `rotl8(b, n)` (R94). -/
def rotl8 (b : Byte) (n : Nat) : Byte := (b <<< n) ||| (b >>> (8 - n))

/-- The S-box entry made from the inverse `b` of its index (R94). -/
def sboxFromInverse (b : Byte) : Byte := b ^^^ rotl8 b 1 ^^^ rotl8 b 2 ^^^ rotl8 b 3 ^^^ rotl8 b 4 ^^^ 0x63

/-! ### The properties of R98 -/

/-- R98 (a): two tables are inverse to each other on bytes; `sbox` and `invSbox` are. -/
def inverseTables (f g : Byte → Byte) : Prop := ∀ x, g (f x) = x ∧ f (g x) = x

/-- R98 (b): a table is linear over exclusive-or and takes 0 to 0; each of `mul2`, `mul3`, `mul9`, `mul11`, `mul13`, `mul14` is. -/
def linearTable (table : Byte → Byte) : Prop := (∀ a b, table (a ^^^ b) = table a ^^^ table b) ∧ table 0 = 0

/-- R98 (d): a table has neither a fixed point nor a byte it takes to its complement; `sbox` has neither. -/
def movesEveryByte (table : Byte → Byte) : Prop := ∀ a, table a ≠ a ∧ table a ≠ a ^^^ 0xFF

/-- R98 (e) at the byte `a`: the first row of the product of the two coefficient matrices is that of the unit matrix. -/
def mixCancels (a : Byte) : Prop :=
  mul14 (mul2 a) ^^^ mul11 a ^^^ mul13 a ^^^ mul9 (mul3 a) = a ∧
  mul14 (mul3 a) ^^^ mul11 (mul2 a) ^^^ mul13 a ^^^ mul9 a = 0 ∧
  mul14 a ^^^ mul11 (mul3 a) ^^^ mul13 (mul2 a) ^^^ mul9 a = 0 ∧
  mul14 a ^^^ mul11 a ^^^ mul13 (mul3 a) ^^^ mul9 (mul2 a) = 0

end Sys2Proof.Machine
end

