-- ==== Sys2Proof/Machine/Round.lean ====
section
/-! DEFINITION. The round primitives and the seven step commands (R135 to R145). Each computes all 16 cells from the old `ST`. -/

namespace Sys2Proof.Machine

/-- `AddRoundKey(S, r)`: `S[i][j] ^ W[4r + i][j]` (R136). -/
def addRoundKey (w : Schedule) (r : Fin 11) (m : Block) : Block :=
  Block.ofFn fun i j => m.get i j ^^^ w.byte (scheduleRow r i) j

/-- `SubBytes(S)` (R137). -/
def subBytes (m : Block) : Block := Block.ofFn fun i j => sbox (m.get i j)

/-- `ShiftRows(S)`: stored row `i` rotated left by `i` places (R138). -/
def shiftRows (m : Block) : Block := Block.ofFn fun i j => m.get i (j + i)

/-- The `temp[0..3]` formulas of the forward mixing, for one stored row (R139). -/
def mixRow (a : Row) : Row where
  c0 := mul2 a.c0 ^^^ mul3 a.c1 ^^^ a.c2 ^^^ a.c3
  c1 := a.c0 ^^^ mul2 a.c1 ^^^ mul3 a.c2 ^^^ a.c3
  c2 := a.c0 ^^^ a.c1 ^^^ mul2 a.c2 ^^^ mul3 a.c3
  c3 := mul3 a.c0 ^^^ a.c1 ^^^ a.c2 ^^^ mul2 a.c3

/-- `Mix(S)`: each stored row mixed alone (R139). -/
def mix (m : Block) : Block := Block.ofRows fun i => mixRow (m.row i)

/-- `InvSubBytes(S)` (R140). -/
def invSubBytes (m : Block) : Block := Block.ofFn fun i j => invSbox (m.get i j)

/-- `InvShiftRows(S)`: stored row `i` rotated right by `i` places (R141). -/
def invShiftRows (m : Block) : Block := Block.ofFn fun i j => m.get i (j - i)

/-- The `temp[0..3]` formulas of the inverse mixing, for one stored row (R142). -/
def invMixRow (a : Row) : Row where
  c0 := mul14 a.c0 ^^^ mul11 a.c1 ^^^ mul13 a.c2 ^^^ mul9 a.c3
  c1 := mul9 a.c0 ^^^ mul14 a.c1 ^^^ mul11 a.c2 ^^^ mul13 a.c3
  c2 := mul13 a.c0 ^^^ mul9 a.c1 ^^^ mul14 a.c2 ^^^ mul11 a.c3
  c3 := mul11 a.c0 ^^^ mul13 a.c1 ^^^ mul9 a.c2 ^^^ mul14 a.c3

/-- `InvMix(S)`: each stored row (R142). -/
def invMix (m : Block) : Block := Block.ofRows fun i => invMixRow (m.row i)

/-- The effect of a step command on the state: only `ST` changes (R135). -/
def State.withSt (s : State) (m : Block) : State := { s with st := m }

/-- `ARK r` (R136): flag `UNINIT` if no key is configured, then add round key `r`; `r > 10` is an illegal word, which changes nothing
but `ILLCMD` (R78; log entry 11). -/
def execArk (r : Byte) (s : State) : Host.Outcome State Fault Refusal :=
  match roundNumber? r with
  | some k => .next (s.flagUninit.withSt (addRoundKey s.w k s.st))
  | none => .next s.illegalCommand

/-- `SUBB` (R137). -/
def execSubb (s : State) : Host.Outcome State Fault Refusal := .next (s.withSt (subBytes s.st))

/-- `SHROW` (R138). -/
def execShrow (s : State) : Host.Outcome State Fault Refusal := .next (s.withSt (shiftRows s.st))

/-- `MIXC` (R139). -/
def execMixc (s : State) : Host.Outcome State Fault Refusal := .next (s.withSt (mix s.st))

/-- `ISUBB` (R140). -/
def execIsubb (s : State) : Host.Outcome State Fault Refusal := .next (s.withSt (invSubBytes s.st))

/-- `ISHROW` (R141). -/
def execIshrow (s : State) : Host.Outcome State Fault Refusal := .next (s.withSt (invShiftRows s.st))

/-- `IMIXC` (R142). -/
def execImixc (s : State) : Host.Outcome State Fault Refusal := .next (s.withSt (invMix s.st))

end Sys2Proof.Machine
end

