-- ==== Sys2Proof/Machine/Cipher.lean ====
section
/-! DEFINITION. The round engine: `Enc` and `Dec`, and the block commands `ENCB` and `DECB` (R160 to R166). -/

namespace Sys2Proof.Machine

/-- One full forward round (R161, step 2). -/
def forwardRound (w : Schedule) (m : Block) (r : Fin 11) : Block :=
  addRoundKey w r (mix (shiftRows (subBytes m)))

/-- The forward transform `Enc(S, W)` (R161): the initial key addition, rounds 1 to 9 in order, the final round without mixing. -/
def enc (m : Block) (w : Schedule) : Block :=
  addRoundKey w 10 (shiftRows (subBytes ([1, 2, 3, 4, 5, 6, 7, 8, 9].foldl (forwardRound w) (addRoundKey w 0 m))))

/-- One full inverse round (R162): key addition, inverse mixing, inverse shift, inverse substitution. -/
def inverseRound (w : Schedule) (m : Block) (r : Fin 11) : Block :=
  invSubBytes (invShiftRows (invMix (addRoundKey w r m)))

/-- The inverse transform `Dec(S, W)` (R162): the first stage, rounds 9 down to 1, and `AddRoundKey(S, 0)` once, after the loop. -/
def dec (m : Block) (w : Schedule) : Block :=
  addRoundKey w 0 ([9, 8, 7, 6, 5, 4, 3, 2, 1].foldl (inverseRound w) (invSubBytes (invShiftRows (addRoundKey w 10 m))))

/-- `ENCB` (R161): flag `UNINIT` if no key is configured, then `ST <- Enc(ST, W)`. -/
def execEncb (s : State) : Host.Outcome State Fault Refusal := .next (s.flagUninit.withSt (enc s.st s.w))

/-- `DECB` (R162): flag `UNINIT` if no key is configured, then `ST <- Dec(ST, W)`. -/
def execDecb (s : State) : Host.Outcome State Fault Refusal := .next (s.flagUninit.withSt (dec s.st s.w))

end Sys2Proof.Machine
end

