-- ==== Sys2Proof/Machine/KeySchedule.lean ====
section
/-! DEFINITION. The key schedule expander, the acceptance and rejection of a key, the key option of the message commands, and `SETKEY`
(R120 to R130). -/

namespace Sys2Proof.Machine

/-- Rows 0 to 3 of the schedule are the key, row-major: `W[i][j] = k[4i + j]` (R52, R124). -/
def keyFill (k : Block) : Block := toMatrix k.byte

/-- Steps 1 to 3 of an expansion round (R125): the last column of the previous key block rotated up by one, each byte through the
S-box, the round constant added to byte 0. -/
def expandT (rc : Byte) (p : Block) : Row :=
  Row.ofFn fun i => if i = 0 then sbox (p.get (i + 1) 3) ^^^ rc else sbox (p.get (i + 1) 3)

/-- Steps 4 and 5 for one row (R125, R126): column 0 is the old column 0 with `t` added, and column `c` is the old column `c - 1` with
the new column `c - 1` added, in order. -/
def expandRow (t : Byte) (old : Row) : Row :=
  let b0 := old.c0 ^^^ t
  let b1 := old.c0 ^^^ b0
  let b2 := old.c1 ^^^ b1
  let b3 := old.c2 ^^^ b2
  ⟨b0, b1, b2, b3⟩

/-- One expansion round: the key block of round `r` from that of round `r - 1`, with `rc = RCON[r-1]` (R123, R125, R126). -/
def expandRound (rc : Byte) (p : Block) : Block :=
  Block.ofRows fun i => expandRow ((expandT rc p).get i) (p.row i)

/-- `Expand(k)` (R123): round key 0 is the key, then ten expansion rounds in order. -/
def expand (k : Block) : Schedule :=
  let k0 := keyFill k
  let k1 := expandRound (rcon 0) k0
  let k2 := expandRound (rcon 1) k1
  let k3 := expandRound (rcon 2) k2
  let k4 := expandRound (rcon 3) k3
  let k5 := expandRound (rcon 4) k4
  let k6 := expandRound (rcon 5) k5
  let k7 := expandRound (rcon 6) k6
  let k8 := expandRound (rcon 7) k7
  let k9 := expandRound (rcon 8) k8
  let k10 := expandRound (rcon 9) k9
  ⟨k0, k1, k2, k3, k4, k5, k6, k7, k8, k9, k10⟩

/-- `AcceptKey()` (R121): all of `W` recomputed from `KIN`, `KCFG` set, `ERR` not changed. -/
def State.acceptKey (s : State) : State := { s with w := expand s.kin, kcfg := true }

/-- `RejectKey()` (R122): flag `INVKEY` and nothing else. -/
def State.rejectKey (s : State) : State := s.flag .invkey

/-- `KeyOption(klen)` (R127): no key, a valid key, or an invalid one. -/
def State.keyOption (s : State) (klen : Byte) : State :=
  if keyAbsent klen then s else if keyValid klen then s.acceptKey else s.rejectKey

/-- `SETKEY klen` (R120). -/
def execSetkey (klen : Byte) (s : State) : Host.Outcome State Fault Refusal :=
  .next (if keyValid klen then s.acceptKey else s.rejectKey)

end Sys2Proof.Machine
end

