-- ==== Sys2Proof/Machine/Lookup.lean ====
section
/-! DEFINITION. The nine lookup commands (R99 to R108): `LQ` gets a table entry and nothing else changes; no state is read. -/

namespace Sys2Proof.Machine

/-- The effect shared by the lookup commands (R99). -/
def State.lookedUp (s : State) (v : Byte) : State := { s with lq := v }

/-- `LSBOX x`: `LQ <- SBOX[x]` (R100). -/
def execLsbox (x : Byte) (s : State) : Host.Outcome State Fault Refusal := .next (s.lookedUp (sbox x))

/-- `LISBOX x`: `LQ <- INV_SBOX[x]` (R101). -/
def execLisbox (x : Byte) (s : State) : Host.Outcome State Fault Refusal := .next (s.lookedUp (invSbox x))

/-- `LMUL2 x`: `LQ <- MUL2[x]` (R102). -/
def execLmul2 (x : Byte) (s : State) : Host.Outcome State Fault Refusal := .next (s.lookedUp (mul2 x))

/-- `LMUL3 x`: `LQ <- MUL3[x]` (R103). -/
def execLmul3 (x : Byte) (s : State) : Host.Outcome State Fault Refusal := .next (s.lookedUp (mul3 x))

/-- `LMUL9 x`: `LQ <- MUL9[x]` (R104). -/
def execLmul9 (x : Byte) (s : State) : Host.Outcome State Fault Refusal := .next (s.lookedUp (mul9 x))

/-- `LMUL11 x`: `LQ <- MUL11[x]` (R105). -/
def execLmul11 (x : Byte) (s : State) : Host.Outcome State Fault Refusal := .next (s.lookedUp (mul11 x))

/-- `LMUL13 x`: `LQ <- MUL13[x]` (R106). -/
def execLmul13 (x : Byte) (s : State) : Host.Outcome State Fault Refusal := .next (s.lookedUp (mul13 x))

/-- `LMUL14 x`: `LQ <- MUL14[x]` (R107). -/
def execLmul14 (x : Byte) (s : State) : Host.Outcome State Fault Refusal := .next (s.lookedUp (mul14 x))

/-- `LRCON n`: `LQ <- RCON[n]`; `n ≥ 10` is an illegal word, which leaves `LQ` unchanged and flags `ILLCMD` (R108, R78; log entry 11). -/
def execLrcon (n : Byte) (s : State) : Host.Outcome State Fault Refusal :=
  match rconIndex? n with
  | some k => .next (s.lookedUp (rcon k))
  | none => .next s.illegalCommand

end Sys2Proof.Machine
end

