-- ==== Sys2Proof/Machine/Message.lean ====
section
/-! DEFINITION. The block/text codec and the message commands `ENCM` and `DECM` (R170 to R181). The blocks of a message are taken in
ascending order, which no rule can observe (R57, U17; log entry 13). -/

namespace Sys2Proof.Machine

/-- `blockCount` on encrypt: `L div 16 + 1` (R171). -/
def encBlockCount (length : Nat) : Nat := length / 16 + 1

/-- `blockCount` on decrypt: `L div 16` (R173). -/
def decBlockCount (length : Nat) : Nat := length / 16

/-- `lo8(n)`, the cast to a byte (R8). -/
def lo8 (n : Nat) : Byte := BitVec.ofNat 8 n

/-- `PM[p]`, byte `p` of the padded message (R172): a text byte, or `T - p` past the end of the text. -/
def paddedByte (s : State) (p : Nat) : Byte :=
  if p < s.ilen then s.readIbuf p else lo8 (16 * encBlockCount s.ilen - p)

/-- Block `b` of the padded message (R172). -/
def plainBlock (s : State) (b : Nat) : Block := toMatrix fun k => paddedByte s (16 * b + k.val)

/-- Block `b` of the input on decrypt; nothing is padded (R173). -/
def cipherBlock (s : State) (b : Nat) : Block := toMatrix fun k => s.readIbuf (16 * b + k.val)

/-- A byte survives the decrypt filter: its unsigned value is above 16 (R175). -/
def keptByte (v : Byte) : Bool := decide (16 < v.toNat)

/-- The output of `ENCM`: every byte of every transformed block, in block order then row-major order (R174, R176). -/
def encOutput (s : State) : List Byte :=
  (List.range (encBlockCount s.ilen)).flatMap fun b => fromMatrix (enc (plainBlock s b) s.w)

/-- The output of `DECM`: the kept bytes of every transformed block, in order, with no gap (R175, R177). -/
def decOutput (s : State) : List Byte :=
  ((List.range (decBlockCount s.ilen)).flatMap fun b => fromMatrix (dec (cipherBlock s b) s.w)).filter keptByte

/-- The data work of `ENCM` after its flags (R176). -/
def State.encryptMessage (s : State) : State := s.storeMessage (encOutput s)

/-- The data work of `DECM` after its flags (R177). -/
def State.decryptMessage (s : State) : State := s.storeMessage (decOutput s)

/-- `ENCM klen` (R176): key option, `UNINIT` test, then the data work (R210). -/
def execEncm (klen : Byte) (s : State) : Host.Outcome State Fault Refusal :=
  .next ((s.keyOption klen).flagUninit.encryptMessage)

/-- `DECM klen` (R177): key option, `UNINIT` test, `MISALIGN` test, then the data work (R210). -/
def execDecm (klen : Byte) (s : State) : Host.Outcome State Fault Refusal :=
  .next ((s.keyOption klen).flagUninit.flagMisalign.decryptMessage)

end Sys2Proof.Machine
end

