-- ==== Sys2Proof/Machine/System.lean ====
section
/-! DEFINITION. The system command `CLRERR` (R195). There is no other system-level command (R196). -/

namespace Sys2Proof.Machine

/-- `CLRERR`: `ERR <- 0x00`, all four flags together (R195). -/
def execClrerr (s : State) : Host.Outcome State Fault Refusal := .next { s with err := 0x00 }

end Sys2Proof.Machine
end

