-- ==== Sys2Proof/Machine/Dispatch.lean ====
section
/-! DEFINITION. What each command does: one arm per row of the opcode table, each a direct call of its meaning. -/

namespace Sys2Proof.Machine

def exec (i : Instr) (s : State) : Host.Outcome State Fault Refusal :=
  match i with
  | .setkey klen => Sys2Proof.Machine.execSetkey klen s
  | .encb => Sys2Proof.Machine.execEncb s
  | .decb => Sys2Proof.Machine.execDecb s
  | .encm klen => Sys2Proof.Machine.execEncm klen s
  | .decm klen => Sys2Proof.Machine.execDecm klen s
  | .clrerr => Sys2Proof.Machine.execClrerr s
  | .ark r => Sys2Proof.Machine.execArk r s
  | .subb => Sys2Proof.Machine.execSubb s
  | .shrow => Sys2Proof.Machine.execShrow s
  | .mixc => Sys2Proof.Machine.execMixc s
  | .isubb => Sys2Proof.Machine.execIsubb s
  | .ishrow => Sys2Proof.Machine.execIshrow s
  | .imixc => Sys2Proof.Machine.execImixc s
  | .lsbox x => Sys2Proof.Machine.execLsbox x s
  | .lisbox x => Sys2Proof.Machine.execLisbox x s
  | .lmul2 x => Sys2Proof.Machine.execLmul2 x s
  | .lmul3 x => Sys2Proof.Machine.execLmul3 x s
  | .lmul9 x => Sys2Proof.Machine.execLmul9 x s
  | .lmul11 x => Sys2Proof.Machine.execLmul11 x s
  | .lmul13 x => Sys2Proof.Machine.execLmul13 x s
  | .lmul14 x => Sys2Proof.Machine.execLmul14 x s
  | .lrcon n => Sys2Proof.Machine.execLrcon n s

end Sys2Proof.Machine
end

