-- ==== Sys2Proof/Machine/Port.lean ====
section
/-! DEFINITION. The command port and the host's other actions: what taking one host action does (R30, R40, R55, R56, R225), and the
host directives of R81 as lists of actions. -/

namespace Sys2Proof.Machine

/-- A word is written to `CMD` (R30): a legal one runs its command, an illegal one flags `ILLCMD` and does nothing else (R75, R78). -/
def State.runWord (s : State) (word : CmdWord) : Host.Outcome State Fault Refusal :=
  match decode word with
  | .legal i => exec i s
  | .illegal _ => .next s.illegalCommand

/-- A host write (R40): an allowed location takes a number that fits it, `CMD` runs the word written to it (R30), and the rest has no
meaning (U13, U14; log entry 10). -/
def State.takeWrite (s : State) (c : Cell) (v : Nat) : Host.Outcome State Fault Refusal :=
  if c.hostWritable then
    if c.fits v then
      if c = .cmd then s.runWord (BitVec.ofNat 16 v) else .next (s.hostWrite v c)
    else .refused .valueTooWide
  else .refused .hostWriteReadOnly

/-- A host read: no side effect (R55); `CMD` cannot be read (R30). -/
def State.takeRead (s : State) (c : Cell) : Host.Outcome State Fault Refusal :=
  match s.hostRead c with
  | some _ => .next s
  | none => .refused .commandPortRead

/-- What one host action does. -/
def State.takeAction (s : State) (a : HostAction) : Host.Outcome State Fault Refusal :=
  match a with
  | .command word => s.runWord word
  | .write c v => s.takeWrite c v
  | .read c => s.takeRead c
  | .reset => .next s.resetEvent

/-! ### Host directives (R81) -/

/-- The writes that put a byte list into consecutive cells, the first at number `a`. -/
def writesFrom (cell : Nat → Cell) (a : Nat) : List Byte → List HostAction
  | [] => []
  | v :: rest => .write (cell a) v.toNat :: writesFrom cell (a + 1) rest

/-- `ST` by byte number. -/
def stCell (k : Nat) : Cell := .st (byteRow (Fin.ofNat 16 k)) (byteColumn (Fin.ofNat 16 k))

/-- `KIN` by byte number. -/
def kinCell (k : Nat) : Cell := .kin (Fin.ofNat 16 k)

/-- `.st b0 ... b15`: the first 16 bytes go to `ST` in byte-number order. -/
def stDirective (bytes : List Byte) : List HostAction := writesFrom stCell 0 (bytes.take 16)

/-- `.key ...`: the first 16 bytes go to `KIN`. -/
def keyDirective (bytes : List Byte) : List HostAction := writesFrom kinCell 0 (bytes.take 16)

/-- `.ibuf ...`: the bytes go to `IBUF` and their number to `ILEN`. -/
def ibufDirective (bytes : List Byte) : List HostAction :=
  writesFrom Cell.ibuf 0 bytes ++ [.write .ilen bytes.length]

/-- Offering a key as R73 asks of the host: its first 16 bytes to `KIN`, then `SETKEY` with its saturated length. -/
def offerKey (bytes : List Byte) : List HostAction :=
  keyDirective bytes ++ [.command (encode (.setkey (klenOf bytes.length)))]

/-- The actions that issue a sequence of commands, one word each (R56, R80). -/
def commandsOf (is : List Instr) : List HostAction := is.map fun i => .command (encode i)

end Sys2Proof.Machine
end

