-- ==== Sys2Proof/Machine/Step.lean ====
section
/-! DEFINITION. One step of the machine: the next host action is taken, atomically, in the order the host issued them (R5, R55, R56).
With no action pending the core is idle and its state stays (log entry 1). -/

namespace Sys2Proof.Machine

/-- One step. -/
def step (s : State) : Host.Outcome State Fault Refusal :=
  match s.port with
  | [] => .next s
  | a :: rest => State.takeAction { s with port := rest } a

/-- The state in which the very next step runs the command word `w` of `nbits` bits: the host is about to write it to `CMD` (log entry 1). -/
def State.withFetchWord (s : State) (nbits w : Nat) : State :=
  { s with port := .command (tableWord nbits w) :: s.port }

end Sys2Proof.Machine
end

