-- ==== Sys2Proof/Safety.lean ====
section
/-! DEFINITION. What a safe state and a safe host action are: the invariants the spec states between commands (R25, R34) with the form
of the buffers, what the host may do (R40, R233), and the words the claims use to say that something is unchanged. -/

namespace Sys2Proof.Machine

/-- R34: either no key has been accepted and `W` is all zero, or one has and `W` is the expansion of round key 0, which is the
accepted key (R32). -/
abbrev State.scheduleConsistent (s : State) : Prop :=
  (s.kcfg = false ∧ s.w = Schedule.zero) ∨ (s.kcfg = true ∧ s.w = expand (s.w.key 0))

/-- `OBUF` holds a written value at exactly the indices below `OLEN`: past it the bytes are unspecified (R29). -/
abbrev State.outputHeld (s : State) : Prop := s.obuf.cells.map Prod.fst = List.range s.olen

/-- The invariant of the core between two host actions. -/
abbrev State.Inv (s : State) : Prop :=
  errReserved s.err = 0 ∧ s.scheduleConsistent ∧ s.ibuf.wf = true ∧ s.obuf.wf = true ∧ s.outputHeld

/-- The host action is one the spec gives a meaning (R40, R233): a command, a reset, a read of anything but `CMD`, or a write that the
host may make of a number that fits. -/
def HostAction.lawful : HostAction → Bool
  | .command _ => true
  | .reset => true
  | .read c => decide (c ≠ .cmd)
  | .write c v => c.hostWritable && c.fits v

/-- The lengths are unchanged and every byte of both buffers reads as before. -/
def State.sameBuffers (s t : State) : Prop :=
  t.ilen = s.ilen ∧ t.olen = s.olen ∧ (∀ a, t.readIbuf a = s.readIbuf a) ∧ (∀ a, t.readObuf a = s.readObuf a)

/-- What no command ever writes is unchanged (R40): `KIN`, `ILEN`, every byte of `IBUF`, and the host's pending actions. -/
def State.sameHostData (s t : State) : Prop :=
  t.kin = s.kin ∧ t.ilen = s.ilen ∧ (∀ a, t.readIbuf a = s.readIbuf a) ∧ t.port = s.port

/-- The host has put the message `bytes` into `IBUF` and its length into `ILEN` (R228 step 2). -/
def State.holdsInput (s : State) (bytes : List Byte) : Prop :=
  s.ilen = bytes.length ∧ ∀ a v, bytes[a]? = some v → s.readIbuf a = v

/-- The message that the core left in `OBUF[0 .. OLEN-1]` (R28, R29). -/
def State.output (s : State) : List Byte := (List.range s.olen).map s.readObuf

/-- `n` steps of the core, stopping at the first refusal. -/
def runSteps (n : Nat) (s : State) : Host.Outcome State Fault Refusal := Host.Core.run Sys2Proof.core n s

end Sys2Proof.Machine
end

