-- ==== Sys2Proof/Certificates/Slice0/Obligations.lean ====
section
/-! DEFINITION. The statements for the provers, in the order of `OBLIGATIONS.json`. -/

open Sys2Proof Sys2Proof.Machine

/-! ### Encoding -/

/-- A few command words written bit by bit from R74 (the examples of R80, and the neighbours of V-E5). -/
def Obligations.HandWrittenWordsDecode : Prop :=
  decode 0b0000000100010000 = .legal (.setkey 16) ∧
  decode 0b0000010000000000 = .legal (.encm 0) ∧
  decode 0b0001000000001010 = .legal (.ark 10) ∧
  decode 0b0010000001010011 = .legal (.lsbox 0x53) ∧
  decode 0b0000001000000000 = .legal .encb ∧
  decode 0b0000011000000000 = .legal .clrerr ∧
  decode 0b0010100000001001 = .legal (.lrcon 9) ∧
  decode 0b0000000000000000 = .illegal .unassignedOp ∧
  decode 0b0000001000000001 = .illegal .argNotZero

/-- Decoding the word of a well-formed command gives the command back, whatever its operand. -/
def Obligations.DecodeEncodeRoundTrip : Prop :=
  ∀ i : Instr, i.wellFormed = true → decode (encode i) = .legal i

/-- Every legal word is the word of the command it selects, and that command is well formed: no bit of a legal word is ignored. -/
def Obligations.LegalWordIsItsEncoding : Prop :=
  ∀ (word : CmdWord) (i : Instr), decode word = .legal i → i.wellFormed = true ∧ encode i = word

/-- R76: the illegal words are exactly those of its complete list (a) to (d). -/
def Obligations.IllegalWordsAreExactlyListed : Prop :=
  ∀ word : CmdWord, (∃ why, decode word = .illegal why) ↔
    (word.toNat / 256 = 0x00 ∨ (0x07 ≤ word.toNat / 256 ∧ word.toNat / 256 ≤ 0x0F) ∨
      (0x17 ≤ word.toNat / 256 ∧ word.toNat / 256 ≤ 0x1F) ∨ (0x29 ≤ word.toNat / 256 ∧ word.toNat / 256 ≤ 0xFF)) ∨
    (word.toNat / 256 ∈ [0x02, 0x03, 0x06, 0x11, 0x12, 0x13, 0x14, 0x15, 0x16] ∧ word.toNat % 256 ≠ 0) ∨
    (0x100B ≤ word.toNat ∧ word.toNat ≤ 0x10FF) ∨
    (0x280A ≤ word.toNat ∧ word.toNat ≤ 0x28FF)

/-- R74: a legal word selects exactly one row of the opcode table, by match, mask and legal `ARG`, and it is the row of the command it
decodes to; an illegal word selects no row. -/
def Obligations.DecoderFollowsOpcodeTable : Prop :=
  ∀ word : CmdWord,
    (∀ i, decode word = .legal i → (opcodeTable.filter fun row => row.selects word).map OpRow.mnemonic = [i.mnemonic]) ∧
    (∀ why, decode word = .illegal why → opcodeTable.filter (fun row => row.selects word) = [])

/-- A step runs the decoded command: with a legal word next at the port, the step is `exec` of its command with the word taken from the
port; `withFetchWord` puts a word there; with nothing at the port the state stays (the idle step is the model's choice, log entry 1). -/
def Obligations.StepRunsDecodedCommand : Prop :=
  (∀ (s : State) (word : CmdWord) (i : Instr) (rest : List HostAction),
    s.port = .command word :: rest → decode word = .legal i → step s = exec i { s with port := rest }) ∧
  (∀ (s : State) (n : Nat) (i : Instr), decode (BitVec.ofNat 16 n) = .legal i → step (s.withFetchWord 16 n) = exec i s) ∧
  (∀ s : State, s.port = [] → step s = .next s)

/-- R78: an illegal word changes nothing but `ERR.ILLCMD`; the word is taken from the port and the next action is taken as usual. -/
def Obligations.IllegalWordOnlyFlags : Prop :=
  ∀ (s : State) (word : CmdWord) (why : IllegalWord) (rest : List HostAction),
    s.port = .command word :: rest → decode word = .illegal why →
    step s = .next { s with port := rest, err := s.err ||| 0x08 }

/-- R73: the saturated `klen` of a key of any length tells the core exactly whether the key is valid and whether one is offered. -/
def Obligations.KlenTellsLengthUpToSixteen : Prop :=
  ∀ length : Nat,
    (klenOf length).toNat = min length 255 ∧
    (keyValid (klenOf length) = true ↔ 16 ≤ length) ∧ (keyAbsent (klenOf length) = true ↔ length = 0)

/-! ### Tables -/

/-- R97: each multiplication table is multiplication in the field by its constant, and has the `xtime` form the rule gives. -/
def Obligations.MulTablesAreFieldProducts : Prop :=
  ∀ x : Byte,
    mul2 x = gmul x 2 ∧ mul3 x = gmul x 3 ∧ mul9 x = gmul x 9 ∧ mul11 x = gmul x 11 ∧ mul13 x = gmul x 13 ∧ mul14 x = gmul x 14 ∧
    mul2 x = xtime x ∧ mul3 x = xtime x ^^^ x ∧
    mul9 x = xtime (xtime (xtime x)) ^^^ x ∧
    mul11 x = xtime (xtime (xtime x)) ^^^ xtime x ^^^ x ∧
    mul13 x = xtime (xtime (xtime x)) ^^^ xtime (xtime x) ^^^ x ∧
    mul14 x = xtime (xtime (xtime x)) ^^^ xtime (xtime x) ^^^ xtime x

/-- R93, R94: every byte has exactly one inverse in the sense of R93 (with its two examples), `SBOX[x]` is the affine image of the inverse
of `x`, and `SBOX` is a permutation. -/
def Obligations.SboxIsAffineImageOfInverse : Prop :=
  (∀ a : Byte, ∃ b, isInverseOf a b ∧ ∀ c, isInverseOf a c → c = b) ∧
  isInverseOf 0x00 0x00 ∧ isInverseOf 0x01 0x01 ∧ isInverseOf 0x53 0xCA ∧
  (∀ x b : Byte, isInverseOf x b → sbox x = sboxFromInverse b) ∧
  Function.Bijective sbox

/-- R95: `INV_SBOX` is the inverse permutation of `SBOX`. -/
def Obligations.InvSboxUndoesSbox : Prop :=
  ∀ x : Byte, invSbox (sbox x) = x ∧ sbox (invSbox x) = x

/-- R96: the round constants start at 1 and each is `xtime` of the one before. -/
def Obligations.RoundConstantsDouble : Prop :=
  rcon 0 = 0x01 ∧ (∀ n : Fin 9, rcon n.succ = xtime (rcon n.castSucc)) ∧
  (List.finRange 10).map rcon = [0x01, 0x02, 0x04, 0x08, 0x10, 0x20, 0x40, 0x80, 0x1B, 0x36]

/-- R92: the laws of the field product, and its two examples. -/
def Obligations.FieldProductLaws : Prop :=
  (∀ a b : Byte, gmul a b = gmul b a) ∧ (∀ a : Byte, gmul a 1 = a ∧ gmul a 0 = 0) ∧
  (∀ a b c : Byte, gmul (a ^^^ c) b = gmul a b ^^^ gmul c b) ∧
  gmul 0x57 0x83 = 0xC1 ∧ gmul 0x57 0x13 = 0xFE

/-- R98 (b), (c): every multiplication table is linear over exclusive-or, takes 0 to 0, and is a bijection. -/
def Obligations.MulTablesAreLinearBijections : Prop :=
  ∀ table ∈ [mul2, mul3, mul9, mul11, mul13, mul14],
    linearTable table ∧ Function.Bijective table

/-- R98 (a), (d), (e): `SBOX` and `INV_SBOX` are bijections and inverse to each other, `SBOX` has no fixed point and no complement point,
and the four identities that make the inverse mixing undo the mixing hold at every byte. -/
def Obligations.SboxAndMixIdentities : Prop :=
  Function.Bijective sbox ∧ Function.Bijective invSbox ∧ inverseTables sbox invSbox ∧ movesEveryByte sbox ∧
  ∀ a : Byte, mixCancels a

/-! ### Lookup commands -/

/-- R100, R101: `LSBOX` and `LISBOX`, for every operand and state: the words, the result, and nothing else changed. -/
def Obligations.SboxLookupResults : Prop :=
  (∀ (x : Byte) (s : State),
    decode (0x20#8 ++ x) = .legal (.lsbox x) ∧ exec (.lsbox x) s = .next { s with lq := sbox x } ∧
    decode (0x21#8 ++ x) = .legal (.lisbox x) ∧ exec (.lisbox x) s = .next { s with lq := invSbox x }) ∧
  sbox 0x00 = 0x63 ∧ sbox 0xFF = 0x16 ∧ sbox 0x53 = 0xED ∧
  invSbox 0x00 = 0x52 ∧ invSbox 0x63 = 0x00 ∧ invSbox 0xED = 0x53

/-- R102 to R107: the six multiplication lookups, for every operand and state: the words, the result, and nothing else changed; with the
corner cases and examples of each rule. -/
def Obligations.MulLookupResults : Prop :=
  (∀ (x : Byte) (s : State),
    decode (0x22#8 ++ x) = .legal (.lmul2 x) ∧ exec (.lmul2 x) s = .next { s with lq := mul2 x } ∧
    decode (0x23#8 ++ x) = .legal (.lmul3 x) ∧ exec (.lmul3 x) s = .next { s with lq := mul3 x } ∧
    decode (0x24#8 ++ x) = .legal (.lmul9 x) ∧ exec (.lmul9 x) s = .next { s with lq := mul9 x } ∧
    decode (0x25#8 ++ x) = .legal (.lmul11 x) ∧ exec (.lmul11 x) s = .next { s with lq := mul11 x } ∧
    decode (0x26#8 ++ x) = .legal (.lmul13 x) ∧ exec (.lmul13 x) s = .next { s with lq := mul13 x } ∧
    decode (0x27#8 ++ x) = .legal (.lmul14 x) ∧ exec (.lmul14 x) s = .next { s with lq := mul14 x }) ∧
  (∀ x : Byte, mul2 x = (x <<< 1) ^^^ (if 0x80 ≤ x.toNat then 0x1B else 0x00)) ∧
  [mul2, mul3, mul9, mul11, mul13, mul14].map (fun table => table 0x00) = [0x00, 0x00, 0x00, 0x00, 0x00, 0x00] ∧
  [mul2, mul3, mul9, mul11, mul13, mul14].map (fun table => table 0x80) = [0x1B, 0x9B, 0xEC, 0xF7, 0xDA, 0x41] ∧
  [mul2, mul3, mul9, mul11, mul13, mul14].map (fun table => table 0x57) = [0xAE, 0xF9, 0xD9, 0x77, 0x9E, 0x67]

/-- R108: `LRCON n` for `n` from 0 to 9, and the illegal words above it, which leave `LQ` unchanged. -/
def Obligations.RconLookupResults : Prop :=
  (∀ (n : Fin 10) (s : State),
    decode (0x28#8 ++ BitVec.ofNat 8 n.val) = .legal (.lrcon (BitVec.ofNat 8 n.val)) ∧
    exec (.lrcon (BitVec.ofNat 8 n.val)) s = .next { s with lq := rcon n }) ∧
  rcon 0 = 0x01 ∧ rcon 8 = 0x1B ∧ rcon 9 = 0x36 ∧
  (∀ (n : Byte) (s : State) (rest : List HostAction), 10 ≤ n.toNat →
    step { s with port := .command (0x28#8 ++ n) :: rest } = .next { s with port := rest, err := s.err ||| 0x08 })

/-! ### Round primitives -/

/-- R136: `ARK r` adds schedule rows `4r` to `4r + 3` to the state rows, flags `UNINIT` if no key is configured, changes nothing else, is
its own inverse, and changes nothing in `ST` under the all-zero schedule; `r > 10` is an illegal word; with the example of the rule. -/
def Obligations.ArkAddsRoundKey : Prop :=
  (∀ (r : Fin 11) (s : State), ∃ t,
    decode (0x10#8 ++ BitVec.ofNat 8 r.val) = .legal (.ark (BitVec.ofNat 8 r.val)) ∧
    exec (.ark (BitVec.ofNat 8 r.val)) s = .next t ∧
    t = { s with st := t.st, err := if s.kcfg then s.err else s.err ||| 0x02 } ∧
    (∀ i j : Fin 4, t.st.get i j = s.st.get i j ^^^ s.w.byte (scheduleRow r i) j) ∧
    exec (.ark (BitVec.ofNat 8 r.val)) t = .next { t with st := s.st } ∧
    (s.w = Schedule.zero → t.st = s.st)) ∧
  (∀ r : Byte, 11 ≤ r.toNat → decode (0x10#8 ++ r) = .illegal .roundKeyOutOfRange) ∧
  addRoundKey (expand ⟨⟨0x30, 0x31, 0x32, 0x33⟩, ⟨0x34, 0x35, 0x36, 0x37⟩, ⟨0x38, 0x39, 0x41, 0x42⟩, ⟨0x43, 0x44, 0x45, 0x46⟩⟩) 1
      ⟨⟨0x00, 0x01, 0x02, 0x03⟩, ⟨0x04, 0x05, 0x06, 0x07⟩, ⟨0x08, 0x09, 0x0A, 0x0B⟩, ⟨0x0C, 0x0D, 0x0E, 0x0F⟩⟩ =
    ⟨⟨0xAB, 0x9A, 0xA8, 0x9B⟩, ⟨0x1C, 0x29, 0x1F, 0x28⟩, ⟨0x6A, 0x53, 0x69, 0x29⟩, ⟨0x8C, 0xCE, 0x89, 0xCD⟩⟩

/-- R137, R140: `SUBB` and `ISUBB` replace every cell by its table entry and change nothing else; `SUBB` changes every one of the 16 bytes;
each undoes the other; with the example of each rule. -/
def Obligations.SubstitutionStepResults : Prop :=
  decode 0x1100 = .legal .subb ∧ decode 0x1400 = .legal .isubb ∧
  subBytes ⟨⟨0x00, 0x01, 0x02, 0x03⟩, ⟨0x04, 0x05, 0x06, 0x07⟩, ⟨0x08, 0x09, 0x0A, 0x0B⟩, ⟨0x0C, 0x0D, 0x0E, 0x0F⟩⟩ =
    ⟨⟨0x63, 0x7C, 0x77, 0x7B⟩, ⟨0xF2, 0x6B, 0x6F, 0xC5⟩, ⟨0x30, 0x01, 0x67, 0x2B⟩, ⟨0xFE, 0xD7, 0xAB, 0x76⟩⟩ ∧
  invSubBytes ⟨⟨0x00, 0x01, 0x02, 0x03⟩, ⟨0x04, 0x05, 0x06, 0x07⟩, ⟨0x08, 0x09, 0x0A, 0x0B⟩, ⟨0x0C, 0x0D, 0x0E, 0x0F⟩⟩ =
    ⟨⟨0x52, 0x09, 0x6A, 0xD5⟩, ⟨0x30, 0x36, 0xA5, 0x38⟩, ⟨0xBF, 0x40, 0xA3, 0x9E⟩, ⟨0x81, 0xF3, 0xD7, 0xFB⟩⟩ ∧
  ∀ s : State,
    (∃ m, exec .subb s = .next { s with st := m } ∧
      (∀ i j : Fin 4, m.get i j = sbox (s.st.get i j) ∧ m.get i j ≠ s.st.get i j) ∧
      exec .isubb { s with st := m } = .next s) ∧
    (∃ m, exec .isubb s = .next { s with st := m } ∧
      (∀ i j : Fin 4, m.get i j = invSbox (s.st.get i j)) ∧
      exec .subb { s with st := m } = .next s)

/-- R138, R141: `SHROW` rotates stored row `i` left by `i` places and `ISHROW` rotates it right, written out row by row; nothing else
changes. -/
def Obligations.ShiftStepResults : Prop :=
  decode 0x1200 = .legal .shrow ∧ decode 0x1500 = .legal .ishrow ∧
  ∀ (s : State) (a0 a1 a2 a3 b0 b1 b2 b3 c0 c1 c2 c3 d0 d1 d2 d3 : Byte),
    s.st = ⟨⟨a0, a1, a2, a3⟩, ⟨b0, b1, b2, b3⟩, ⟨c0, c1, c2, c3⟩, ⟨d0, d1, d2, d3⟩⟩ →
    exec .shrow s = .next { s with st := ⟨⟨a0, a1, a2, a3⟩, ⟨b1, b2, b3, b0⟩, ⟨c2, c3, c0, c1⟩, ⟨d3, d0, d1, d2⟩⟩ } ∧
    exec .ishrow s = .next { s with st := ⟨⟨a0, a1, a2, a3⟩, ⟨b3, b0, b1, b2⟩, ⟨c2, c3, c0, c1⟩, ⟨d1, d2, d3, d0⟩⟩ }

/-- R139, R142: `MIXC` and `IMIXC` replace each stored row by the product with the coefficient matrices of the rules (here in terms of the
field product) and change nothing else; a row of four equal bytes is unchanged; the mixing is linear; each undoes the other; with the
examples of the rules. -/
def Obligations.MixStepResults : Prop :=
  decode 0x1300 = .legal .mixc ∧ decode 0x1600 = .legal .imixc ∧
  mix ⟨⟨0x00, 0x01, 0x02, 0x03⟩, ⟨0x04, 0x05, 0x06, 0x07⟩, ⟨0x08, 0x09, 0x0A, 0x0B⟩, ⟨0x0C, 0x0D, 0x0E, 0x0F⟩⟩ =
    ⟨⟨0x02, 0x07, 0x00, 0x05⟩, ⟨0x06, 0x03, 0x04, 0x01⟩, ⟨0x0A, 0x0F, 0x08, 0x0D⟩, ⟨0x0E, 0x0B, 0x0C, 0x09⟩⟩ ∧
  mix ⟨⟨0xDB, 0x13, 0x53, 0x45⟩, ⟨0xF2, 0x0A, 0x22, 0x5C⟩, ⟨0x01, 0x01, 0x01, 0x01⟩, ⟨0x00, 0x00, 0x00, 0x00⟩⟩ =
    ⟨⟨0x8E, 0x4D, 0xA1, 0xBC⟩, ⟨0x9F, 0xDC, 0x58, 0x9D⟩, ⟨0x01, 0x01, 0x01, 0x01⟩, ⟨0x00, 0x00, 0x00, 0x00⟩⟩ ∧
  invMix ⟨⟨0x00, 0x01, 0x02, 0x03⟩, ⟨0x04, 0x05, 0x06, 0x07⟩, ⟨0x08, 0x09, 0x0A, 0x0B⟩, ⟨0x0C, 0x0D, 0x0E, 0x0F⟩⟩ =
    ⟨⟨0x0A, 0x0F, 0x08, 0x0D⟩, ⟨0x0E, 0x0B, 0x0C, 0x09⟩, ⟨0x02, 0x07, 0x00, 0x05⟩, ⟨0x06, 0x03, 0x04, 0x01⟩⟩ ∧
  invMixRow ⟨0x8E, 0x4D, 0xA1, 0xBC⟩ = ⟨0xDB, 0x13, 0x53, 0x45⟩ ∧
  (∀ s : State, ∃ m, exec .mixc s = .next { s with st := m } ∧
    (∀ i : Fin 4, ∀ a : Row, s.st.row i = a →
      m.get i 0 = gmul a.c0 2 ^^^ gmul a.c1 3 ^^^ a.c2 ^^^ a.c3 ∧
      m.get i 1 = a.c0 ^^^ gmul a.c1 2 ^^^ gmul a.c2 3 ^^^ a.c3 ∧
      m.get i 2 = a.c0 ^^^ a.c1 ^^^ gmul a.c2 2 ^^^ gmul a.c3 3 ∧
      m.get i 3 = gmul a.c0 3 ^^^ a.c1 ^^^ a.c2 ^^^ gmul a.c3 2) ∧
    (∀ (i : Fin 4) (v : Byte), s.st.row i = ⟨v, v, v, v⟩ → m.row i = ⟨v, v, v, v⟩) ∧
    exec .imixc { s with st := m } = .next s) ∧
  (∀ s : State, ∃ m, exec .imixc s = .next { s with st := m } ∧
    (∀ i : Fin 4, ∀ a : Row, s.st.row i = a →
      m.get i 0 = gmul a.c0 14 ^^^ gmul a.c1 11 ^^^ gmul a.c2 13 ^^^ gmul a.c3 9 ∧
      m.get i 1 = gmul a.c0 9 ^^^ gmul a.c1 14 ^^^ gmul a.c2 11 ^^^ gmul a.c3 13 ∧
      m.get i 2 = gmul a.c0 13 ^^^ gmul a.c1 9 ^^^ gmul a.c2 14 ^^^ gmul a.c3 11 ∧
      m.get i 3 = gmul a.c0 11 ^^^ gmul a.c1 13 ^^^ gmul a.c2 9 ^^^ gmul a.c3 14) ∧
    (∀ (i : Fin 4) (v : Byte), s.st.row i = ⟨v, v, v, v⟩ → m.row i = ⟨v, v, v, v⟩) ∧
    exec .mixc { s with st := m } = .next s) ∧
  (∀ x y : Block, mix (Block.ofFn fun i j => x.get i j ^^^ y.get i j) = Block.ofFn fun i j => (mix x).get i j ^^^ (mix y).get i j)

/-- R143: each inverse pair of step commands, in both orders, restores the whole state. -/
def Obligations.StepCommandsUndoEachOther : Prop :=
  ∀ s : State,
    ∀ pair ∈ [(Instr.subb, Instr.isubb), (.isubb, .subb), (.shrow, .ishrow), (.ishrow, .shrow), (.mixc, .imixc), (.imixc, .mixc)],
      ∃ t, exec pair.1 s = .next t ∧ exec pair.2 t = .next s

/-- R144: row locality. Two states that agree in row `k` of `ST` and of every round key still agree in row `k` of `ST` after the same step
or block command, whatever their other rows hold. -/
def Obligations.RowsNeverInfluenceEachOther : Prop :=
  ∀ (s u : State) (k : Fin 4) (r : Byte) (i : Instr),
    s.st.row k = u.st.row k → (∀ n : Fin 11, (s.w.key n).row k = (u.w.key n).row k) → r.toNat ≤ 10 →
    i ∈ [Instr.ark r, .subb, .shrow, .mixc, .isubb, .ishrow, .imixc, .encb, .decb] →
    ∃ t v, exec i s = .next t ∧ exec i u = .next v ∧ t.st.row k = v.st.row k

/-! ### Key schedule -/

/-- R123 to R126: `Expand` byte by byte over the 44 rows: the key fills rows 0 to 3, and rows `4r` to `4r + 3` come from the four rows
before them by steps 1 to 5 with `RCON[r-1]`. Here `r` counts the expansion rounds from 0. -/
def Obligations.ExpandFollowsSteps : Prop :=
  ∀ key : Block,
    (∀ i j : Fin 4, (expand key).byte (scheduleRow 0 i) j = key.byte (byteNumber i j)) ∧
    rcon 0 = 0x01 ∧ rcon 9 = 0x36 ∧
    ∀ (r : Fin 10) (i : Fin 4),
      (expand key).byte (scheduleRow r.succ i) 0 =
        (expand key).byte (scheduleRow r.castSucc i) 0 ^^^
          (sbox ((expand key).byte (scheduleRow r.castSucc (i + 1)) 3) ^^^ (if i = 0 then rcon r else 0)) ∧
      ∀ c : Fin 3,
        (expand key).byte (scheduleRow r.succ i) c.succ =
          (expand key).byte (scheduleRow r.castSucc i) c.castSucc ^^^ (expand key).byte (scheduleRow r.succ i) c.castSucc

/-- R128: the closed forms of the four columns of round keys 1 to 10, row by row, in terms of the row before and of `t`, the value after
step 3; column 1 equals `t`. `r` counts the expansion rounds from 0, so the round constant is `RCON[r]` here. -/
def Obligations.ExpandClosedForms : Prop :=
  ∀ (key : Block) (r : Fin 10) (i : Fin 4),
    ∀ a, ((expand key).key r.castSucc).row i = a → ∀ b, ((expand key).key r.succ).row i = b →
      ∀ t, (expandT (rcon r) ((expand key).key r.castSucc)).get i = t →
        t = sbox (((expand key).key r.castSucc).get (i + 1) 3) ^^^ (if i = 0 then rcon r else 0) ∧
        b.c0 = a.c0 ^^^ t ∧ b.c1 = t ∧ b.c1 = a.c0 ^^^ b.c0 ∧ b.c2 = a.c1 ^^^ b.c1 ∧ b.c2 = a.c1 ^^^ t ∧
        b.c3 = a.c2 ^^^ b.c2 ∧ b.c3 = a.c2 ^^^ a.c1 ^^^ t

/-- R120 to R122: `SETKEY` accepts a key of 16 bytes or more and rejects a shorter one; nothing else changes. -/
def Obligations.SetkeyAcceptsOrRejects : Prop :=
  ∀ (klen : Byte) (s : State),
    decode (0x01#8 ++ klen) = .legal (.setkey klen) ∧
    (16 ≤ klen.toNat → exec (.setkey klen) s = .next { s with w := expand s.kin, kcfg := true }) ∧
    (klen.toNat < 16 → exec (.setkey klen) s = .next { s with err := s.err ||| 0x01 })

/-- R127: the key option of the message commands: no key, a valid key, a short key. -/
def Obligations.KeyOptionRule : Prop :=
  ∀ (klen : Byte) (s : State),
    (klen.toNat = 0 → s.keyOption klen = s) ∧
    (16 ≤ klen.toNat → s.keyOption klen = { s with w := expand s.kin, kcfg := true }) ∧
    (1 ≤ klen.toNat → klen.toNat ≤ 15 → s.keyOption klen = { s with err := s.err ||| 0x01 })

/-- R73, R121, R130 (b), (e): the host offers a key of 16 bytes or more as the rules say (its first 16 bytes to `KIN`, then `SETKEY` with the
saturated length): after those 17 actions `W` is the expansion of the first 16 bytes alone and `KCFG` is set. -/
def Obligations.OfferedKeyUsesFirstSixteenBytes : Prop :=
  ∀ (s : State) (key : List Byte) (rest : List HostAction), 16 ≤ key.length →
    ∃ t, runSteps 17 { s with port := offerKey key ++ rest } = .next t ∧
      t = { s with kin := t.kin, w := t.w, kcfg := true, port := rest } ∧
      t.w = expand (toMatrix fun k => key.getD k.val 0)

/-! ### Block commands -/

/-- R161: `ENCB` flags `UNINIT` if no key is configured and replaces `ST` by the forward transform, written out; nothing else
changes; with the example of the rule. -/
def Obligations.EncbIsForwardTransform : Prop :=
  decode 0x0200 = .legal .encb ∧
  enc ⟨⟨0x48, 0x45, 0x4C, 0x4C⟩, ⟨0x4F, 0x20, 0x57, 0x4F⟩, ⟨0x52, 0x4C, 0x44, 0x31⟩, ⟨0x32, 0x33, 0x34, 0x35⟩⟩
      (expand ⟨⟨0x30, 0x31, 0x32, 0x33⟩, ⟨0x34, 0x35, 0x36, 0x37⟩, ⟨0x38, 0x39, 0x41, 0x42⟩, ⟨0x43, 0x44, 0x45, 0x46⟩⟩) =
    ⟨⟨0x4C, 0xF5, 0x77, 0xCA⟩, ⟨0x9A, 0xB4, 0x74, 0x7F⟩, ⟨0xDE, 0xA1, 0x87, 0xDB⟩, ⟨0x7F, 0x2A, 0x7E, 0x08⟩⟩ ∧
  ∀ s : State,
    let round : Fin 11 → Block → Block := fun r m => addRoundKey s.w r (mix (shiftRows (subBytes m)))
    exec .encb s = .next { s with
      st := addRoundKey s.w 10 (shiftRows (subBytes (round 9 (round 8 (round 7 (round 6 (round 5 (round 4 (round 3 (round 2 (round 1
        (addRoundKey s.w 0 s.st))))))))))))
      err := if s.kcfg then s.err else s.err ||| 0x02 }

/-- R162: `DECB` flags `UNINIT` if no key is configured and replaces `ST` by the inverse transform, written out; nothing else
changes; with the example of the rule. -/
def Obligations.DecbIsInverseTransform : Prop :=
  decode 0x0300 = .legal .decb ∧
  dec ⟨⟨0x4C, 0xF5, 0x77, 0xCA⟩, ⟨0x9A, 0xB4, 0x74, 0x7F⟩, ⟨0xDE, 0xA1, 0x87, 0xDB⟩, ⟨0x7F, 0x2A, 0x7E, 0x08⟩⟩
      (expand ⟨⟨0x30, 0x31, 0x32, 0x33⟩, ⟨0x34, 0x35, 0x36, 0x37⟩, ⟨0x38, 0x39, 0x41, 0x42⟩, ⟨0x43, 0x44, 0x45, 0x46⟩⟩) =
    ⟨⟨0x48, 0x45, 0x4C, 0x4C⟩, ⟨0x4F, 0x20, 0x57, 0x4F⟩, ⟨0x52, 0x4C, 0x44, 0x31⟩, ⟨0x32, 0x33, 0x34, 0x35⟩⟩ ∧
  ∀ s : State,
    let round : Fin 11 → Block → Block := fun r m => invSubBytes (invShiftRows (invMix (addRoundKey s.w r m)))
    exec .decb s = .next { s with
      st := addRoundKey s.w 0 (round 1 (round 2 (round 3 (round 4 (round 5 (round 6 (round 7 (round 8 (round 9
        (invSubBytes (invShiftRows (addRoundKey s.w 10 s.st))))))))))))
      err := if s.kcfg then s.err else s.err ||| 0x02 }

/-- R163: the 40 step commands of R81's pseudo-instructions, issued one word at a time, leave the same state as the one word of `ENCB`, and
likewise for `DECB`; `ERR` ends equal too. -/
def Obligations.BlockCommandsEqualStepCommands : Prop :=
  ∀ (s : State) (rest : List HostAction),
    (∃ t, runSteps 40 { s with port := commandsOf encbSteps ++ rest } = .next t ∧
      step { s with port := .command 0x0200 :: rest } = .next t) ∧
    (∃ t, runSteps 40 { s with port := commandsOf decbSteps ++ rest } = .next t ∧
      step { s with port := .command 0x0300 :: rest } = .next t)

/-- R164: for every block and every schedule, `Dec` undoes `Enc` and `Enc` undoes `Dec`; as commands, `ENCB` then `DECB` restores `ST`. -/
def Obligations.BlockRoundTrip : Prop :=
  (∀ (m : Block) (w : Schedule), dec (enc m w) w = m ∧ enc (dec m w) w = m) ∧
  (∀ s : State, ∃ t, exec .encb s = .next t ∧ exec .decb t = .next { t with st := s.st }) ∧
  (∀ s : State, ∃ t, exec .decb s = .next t ∧ exec .encb t = .next { t with st := s.st })

/-! ### Message commands -/

/-- R171, R172: with `T = 16 * (L div 16 + 1)`, always `T > L` and `T - L ≤ 16`, and the pad value at every position of the pad region is
from 1 to 16, so the cast to a byte does not truncate and the decrypt filter drops it. -/
def Obligations.PadBytesAreOneToSixteen : Prop :=
  ∀ length p : Nat,
    length < 16 * encBlockCount length ∧ 16 * encBlockCount length ≤ length + 16 ∧
    (length ≤ p → p < 16 * encBlockCount length →
      1 ≤ 16 * encBlockCount length - p ∧ 16 * encBlockCount length - p ≤ 16 ∧
      (lo8 (16 * encBlockCount length - p)).toNat = 16 * encBlockCount length - p ∧
      keptByte (lo8 (16 * encBlockCount length - p)) = false)

/-- R171, R172, R174, R176: `ENCM` for every `klen` and state: the key option first, then the flags, then every block of the padded message
goes through `Enc` into `OBUF`, and `OLEN` is the padded length. `KIN`, `LQ`, `ILEN` and every byte of `IBUF` are unchanged. `ST` and `OBUF` past
`OLEN` are left free (R21, R29). With the example of R176. -/
def Obligations.EncmEncryptsPaddedMessage : Prop :=
  (∃ t, exec (.encm 16) { State.reset with
      kin := ⟨⟨0x30, 0x31, 0x32, 0x33⟩, ⟨0x34, 0x35, 0x36, 0x37⟩, ⟨0x38, 0x39, 0x41, 0x42⟩, ⟨0x43, 0x44, 0x45, 0x46⟩⟩
      ilen := 16
      ibuf := Memory.holding [0x48, 0x45, 0x4C, 0x4C, 0x4F, 0x20, 0x57, 0x4F, 0x52, 0x4C, 0x44, 0x31, 0x32, 0x33, 0x34, 0x35] 0 } = .next t ∧
    t.output = [0x4C, 0xF5, 0x77, 0xCA, 0x9A, 0xB4, 0x74, 0x7F, 0xDE, 0xA1, 0x87, 0xDB, 0x7F, 0x2A, 0x7E, 0x08] ++
      [0x16, 0xC6, 0x2A, 0x6D, 0x69, 0x8D, 0xDE, 0xE1, 0x4E, 0x39, 0x2A, 0xA8, 0xF8, 0xAC, 0xEF, 0xB7]) ∧
  ∀ (klen : Byte) (s : State), ∃ t,
    decode (0x04#8 ++ klen) = .legal (.encm klen) ∧
    exec (.encm klen) s = .next t ∧
    t.w = (if 16 ≤ klen.toNat then expand s.kin else s.w) ∧
    t.kcfg = (if 16 ≤ klen.toNat then true else s.kcfg) ∧
    t.err = s.err ||| (if 1 ≤ klen.toNat ∧ klen.toNat ≤ 15 then 0x01 else 0x00) ||| (if t.kcfg then 0x00 else 0x02) ∧
    t.olen = 16 * (s.ilen / 16 + 1) ∧
    (∀ b, b < s.ilen / 16 + 1 → ∀ k : Fin 16,
      t.readObuf (16 * b + k.val) =
        (enc (toMatrix fun n =>
            if 16 * b + n.val < s.ilen then s.readIbuf (16 * b + n.val)
            else BitVec.ofNat 8 (16 * (s.ilen / 16 + 1) - (16 * b + n.val))) t.w).byte k) ∧
    t.kin = s.kin ∧ t.lq = s.lq ∧ t.ilen = s.ilen ∧ (∀ a, t.readIbuf a = s.readIbuf a) ∧ t.port = s.port

/-- R173, R175, R177: `DECM` for every `klen` and state: the key option first, then the flags, then every whole block of `IBUF` goes through
`Dec`, and the bytes above 16, in order, are the output message. `KIN`, `LQ`, `ILEN` and every byte of `IBUF` are unchanged. `ST` and `OBUF` past
`OLEN` are left free (R21, R29). With the example of R177. -/
def Obligations.DecmDecryptsAndFilters : Prop :=
  (∃ t, exec (.decm 0) { State.reset with
      w := expand ⟨⟨0x30, 0x31, 0x32, 0x33⟩, ⟨0x34, 0x35, 0x36, 0x37⟩, ⟨0x38, 0x39, 0x41, 0x42⟩, ⟨0x43, 0x44, 0x45, 0x46⟩⟩
      kcfg := true
      ilen := 32
      ibuf := Memory.holding ([0x4C, 0xF5, 0x77, 0xCA, 0x9A, 0xB4, 0x74, 0x7F, 0xDE, 0xA1, 0x87, 0xDB, 0x7F, 0x2A, 0x7E, 0x08] ++
        [0x16, 0xC6, 0x2A, 0x6D, 0x69, 0x8D, 0xDE, 0xE1, 0x4E, 0x39, 0x2A, 0xA8, 0xF8, 0xAC, 0xEF, 0xB7]) 0 } = .next t ∧
    t.output = [0x48, 0x45, 0x4C, 0x4C, 0x4F, 0x20, 0x57, 0x4F, 0x52, 0x4C, 0x44, 0x31, 0x32, 0x33, 0x34, 0x35]) ∧
  ∀ (klen : Byte) (s : State), ∃ t,
    decode (0x05#8 ++ klen) = .legal (.decm klen) ∧
    exec (.decm klen) s = .next t ∧
    t.w = (if 16 ≤ klen.toNat then expand s.kin else s.w) ∧
    t.kcfg = (if 16 ≤ klen.toNat then true else s.kcfg) ∧
    t.err = s.err ||| (if 1 ≤ klen.toNat ∧ klen.toNat ≤ 15 then 0x01 else 0x00) ||| (if t.kcfg then 0x00 else 0x02) |||
      (if s.ilen % 16 = 0 then 0x00 else 0x04) ∧
    t.output = ((List.range (s.ilen / 16)).flatMap fun b => (List.finRange 16).map fun k =>
        (dec (toMatrix fun n => s.readIbuf (16 * b + n.val)) t.w).byte k).filter (fun v => decide (16 < v.toNat)) ∧
    t.olen = t.output.length ∧ t.olen ≤ 16 * (s.ilen / 16) ∧
    t.kin = s.kin ∧ t.lq = s.lq ∧ t.ilen = s.ilen ∧ (∀ a, t.readIbuf a = s.readIbuf a) ∧ t.port = s.port

/-- R178: the message round trip. Whatever key is offered or not, if `ENCM` runs on a message and `DECM 0` runs on its output under the same
`W`, the result is the message with every byte of value 16 or less removed, and nothing else. -/
def Obligations.MessageRoundTrip : Prop :=
  ∀ (s : State) (klen : Byte) (text : List Byte), s.holdsInput text →
    ∃ t, exec (.encm klen) s = .next t ∧
      ∀ u : State, u.w = t.w → u.holdsInput t.output →
        ∃ v, exec (.decm 0) u = .next v ∧ v.output = text.filter (fun x => decide (16 < x.toNat))

/-- R57: block independence. Two messages that agree in one whole block give output that agrees in that block, under one schedule, whatever
their lengths and other bytes. -/
def Obligations.BlocksAreIndependent : Prop :=
  ∀ (s u : State) (b : Nat), s.w = u.w → 16 * b + 16 ≤ s.ilen → 16 * b + 16 ≤ u.ilen →
    (∀ k : Fin 16, s.readIbuf (16 * b + k.val) = u.readIbuf (16 * b + k.val)) →
    ∃ t v, exec (.encm 0) s = .next t ∧ exec (.encm 0) u = .next v ∧
      ∀ k : Fin 16, t.readObuf (16 * b + k.val) = v.readObuf (16 * b + k.val)

/-- R181, R173: the bytes of `IBUF` at and past `ILEN`, and on decrypt those of a partial last block too, never matter: states that differ
only in such bytes give the same next state but for the buffer itself. That `ST` and `OBUF` past `OLEN` are the same in the two next
states is the model's, not the spec's, which leaves them unspecified (R21, R29): both commands draw them by one draw number (log entry 6). -/
def Obligations.BytesPastMessageNeverMatter : Prop :=
  ∀ (s : State) (other : Memory) (klen : Byte),
    ((∀ a, a < s.ilen → other.read .ibuf a = s.readIbuf a) →
      ∃ t, exec (.encm klen) s = .next t ∧ exec (.encm klen) { s with ibuf := other } = .next { t with ibuf := other }) ∧
    ((∀ a, a < 16 * (s.ilen / 16) → other.read .ibuf a = s.readIbuf a) →
      ∃ t, exec (.decm klen) s = .next t ∧ exec (.decm klen) { s with ibuf := other } = .next { t with ibuf := other })

/-! ### Flags -/

/-- R204 to R206: after a legal command each of the three flags is set exactly if it was set before and the command is not `CLRERR`, or the
command meets the condition of its rule; `ILLCMD` is set by no legal command. -/
def Obligations.FlagsSetExactlyByTheirConditions : Prop :=
  ∀ (i : Instr) (s t : State), i.wellFormed = true → exec i s = .next t →
    (errHas t.err .invkey = true ↔ (errHas s.err .invkey = true ∧ i ≠ .clrerr) ∨
      (∃ klen : Byte, i = .setkey klen ∧ klen.toNat < 16) ∨
      (∃ klen : Byte, (i = .encm klen ∨ i = .decm klen) ∧ 1 ≤ klen.toNat ∧ klen.toNat ≤ 15)) ∧
    (errHas t.err .uninit = true ↔ (errHas s.err .uninit = true ∧ i ≠ .clrerr) ∨
      (s.kcfg = false ∧ (i = .encb ∨ i = .decb ∨ (∃ r : Byte, i = .ark r) ∨
        (∃ klen : Byte, (i = .encm klen ∨ i = .decm klen) ∧ klen.toNat < 16)))) ∧
    (errHas t.err .misalign = true ↔ (errHas s.err .misalign = true ∧ i ≠ .clrerr) ∨
      (s.ilen % 16 ≠ 0 ∧ ∃ klen : Byte, i = .decm klen)) ∧
    (errHas t.err .illcmd = true ↔ errHas s.err .illcmd = true ∧ i ≠ .clrerr)

/-- R25: a flag, once set, is cleared by no step but one that takes `CLRERR` or the reset event. -/
def Obligations.FlagsAreSticky : Prop :=
  ∀ (s t : State) (a : HostAction) (rest : List HostAction) (f : ErrFlag),
    s.port = a :: rest → a ≠ .reset → a ≠ .command 0x0600 → a ≠ .write .cmd 0x0600 →
    step s = .next t → errHas s.err f = true → errHas t.err f = true

/-- R195: `CLRERR` clears all flags and changes nothing else; with a non-zero `ARG` the word is illegal and sets `ILLCMD` instead. -/
def Obligations.ClrerrClearsAllFlags : Prop :=
  (∀ s : State, exec .clrerr s = .next { s with err := 0x00 }) ∧
  decode 0x0600 = .legal .clrerr ∧
  (∀ (arg : Byte) (s : State) (rest : List HostAction), arg ≠ 0 →
    step { s with port := .command (0x06#8 ++ arg) :: rest } = .next { s with port := rest, err := s.err ||| 0x08 })

/-- R203: `ERR` has no effect on any result: whatever `ERR` holds, a command leaves the same in every other piece of state. Of `ST` and `OBUF`
past `OLEN` after `ENCM` and `DECM`, which the spec leaves unspecified (R21, R29), this is the model's: one draw number (log entry 6). On the
terms `ARK` above 10 and `LRCON` above 9, which no word decodes to, it rests on log entry 11. -/
def Obligations.ErrNeverChangesResults : Prop :=
  ∀ (i : Instr) (s : State) (e : Byte), ∃ t e',
    exec i s = .next t ∧ exec i { s with err := e } = .next { t with err := e' }

/-- R24: no command's data result depends on `KCFG`: whatever `KCFG` holds, a command leaves the same in every piece of state but `KCFG` and
`ERR`. Of `ST` and `OBUF` past `OLEN` after `ENCM` and `DECM`, which the spec leaves unspecified (R21, R29), this is the model's: one draw
number (log entry 6). On the terms `ARK` above 10 and `LRCON` above 9, which no word decodes to, it rests on log entry 11. -/
def Obligations.KcfgNeverChangesData : Prop :=
  ∀ (i : Instr) (s : State) (c : Bool), ∃ t c' e',
    exec i s = .next t ∧ exec i { s with kcfg := c } = .next { t with kcfg := c', err := e' }

/-! ### Whole-machine rules and frames -/

/-- R40, last column: each register is changed only by the commands the table names as its writers: `ST` by step and macro commands, `W` and
`KCFG` by an accepted key, `LQ` by lookup commands, `ERR` by `CLRERR` and by the commands that flag a condition (`SETKEY`, `ARK`, the block and
the message commands), `OLEN` and `OBUF` by the message commands, and `KIN`, `ILEN`, `IBUF` by none. The clause on `ERR` is of well-formed
commands: an illegal word flags too, by `IllegalWordOnlyFlags`. -/
def Obligations.EachRegisterHasOnlyItsWriters : Prop :=
  ∀ (i : Instr) (s t : State), exec i s = .next t →
    s.sameHostData t ∧
    (t.st ≠ s.st → i ∈ [Instr.subb, .shrow, .mixc, .isubb, .ishrow, .imixc, .encb, .decb] ∨
      (∃ r, i = .ark r) ∨ ∃ klen, i = .encm klen ∨ i = .decm klen) ∧
    ((t.w ≠ s.w ∨ t.kcfg ≠ s.kcfg) → t.w = expand s.kin ∧ t.kcfg = true ∧
      ∃ klen : Byte, 16 ≤ klen.toNat ∧ (i = .setkey klen ∨ i = .encm klen ∨ i = .decm klen)) ∧
    (i.wellFormed = true → t.err ≠ s.err → i ∈ [Instr.encb, .decb, .clrerr] ∨ (∃ r, i = .ark r) ∨
      ∃ klen, i = .setkey klen ∨ i = .encm klen ∨ i = .decm klen) ∧
    (t.lq ≠ s.lq → ∃ x, i ∈ [Instr.lsbox x, .lisbox x, .lmul2 x, .lmul3 x, .lmul9 x, .lmul11 x, .lmul13 x, .lmul14 x, .lrcon x]) ∧
    ((t.olen ≠ s.olen ∨ ∃ a, t.readObuf a ≠ s.readObuf a) → ∃ klen, i = .encm klen ∨ i = .decm klen)

/-- The frame of the nine lookup commands (R99): everything but `LQ` is unchanged, every byte of both buffers included. -/
def Obligations.FrameOfLookupCommands : Prop :=
  ∀ (x n : Byte) (i : Instr) (s t : State), n.toNat ≤ 9 →
    i ∈ [Instr.lsbox x, .lisbox x, .lmul2 x, .lmul3 x, .lmul9 x, .lmul11 x, .lmul13 x, .lmul14 x, .lrcon n] →
    exec i s = .next t →
    t.st = s.st ∧ t.w = s.w ∧ t.kin = s.kin ∧ t.kcfg = s.kcfg ∧ t.err = s.err ∧ s.sameBuffers t ∧ t.port = s.port

/-- The frame of the step and block commands (R135, R160): everything but `ST` is unchanged, every byte of both buffers included, except that
`ARK`, `ENCB` and `DECB` set `UNINIT` when no key is configured. -/
def Obligations.FrameOfStepAndBlockCommands : Prop :=
  ∀ (r : Byte) (i : Instr) (s t : State), r.toNat ≤ 10 →
    i ∈ [Instr.ark r, .subb, .shrow, .mixc, .isubb, .ishrow, .imixc, .encb, .decb] →
    exec i s = .next t →
    t.w = s.w ∧ t.kin = s.kin ∧ t.kcfg = s.kcfg ∧ t.lq = s.lq ∧ s.sameBuffers t ∧ t.port = s.port ∧
    t.err = (if s.kcfg = false ∧ i ∈ [Instr.ark r, .encb, .decb] then s.err ||| 0x02 else s.err)

/-- The frame of `SETKEY` and `CLRERR` (R120, R195): `ST`, `KIN`, `LQ`, the lengths and every byte of both buffers are unchanged; `SETKEY` changes
`ERR` in `INVKEY` only, and `CLRERR` leaves `W` and `KCFG`. -/
def Obligations.FrameOfSetkeyAndClrerr : Prop :=
  ∀ (klen : Byte) (i : Instr) (s t : State),
    i ∈ [Instr.setkey klen, .clrerr] → exec i s = .next t →
    t.st = s.st ∧ t.kin = s.kin ∧ t.lq = s.lq ∧ s.sameBuffers t ∧ t.port = s.port ∧
    (i = .setkey klen → t.err ||| 0x01 = s.err ||| 0x01) ∧ (i = .clrerr → t.w = s.w ∧ t.kcfg = s.kcfg)

/-- The frame of the message commands (R170): `KIN`, `LQ`, `ILEN`, every byte of `IBUF`, the reserved field of `ERR` and `ILLCMD` are unchanged, and
`MISALIGN` too by `ENCM`; so are `W` and `KCFG` unless a valid key is offered. They write `OBUF` from index 0 to `OLEN - 1`; past it, and in
`ST`, the spec leaves the bytes unspecified. -/
def Obligations.FrameOfMessageCommands : Prop :=
  ∀ (klen : Byte) (i : Instr) (s t : State),
    i ∈ [Instr.encm klen, .decm klen] → exec i s = .next t →
    t.kin = s.kin ∧ t.lq = s.lq ∧ t.ilen = s.ilen ∧ (∀ a, t.readIbuf a = s.readIbuf a) ∧ t.port = s.port ∧
    errReserved t.err = errReserved s.err ∧ errHas t.err .illcmd = errHas s.err .illcmd ∧
    (i = .encm klen → errHas t.err .misalign = errHas s.err .misalign) ∧
    (klen.toNat < 16 → t.w = s.w ∧ t.kcfg = s.kcfg)

/-- R200: every command word, legal or not, in every state, runs to its end in one step: a next state, never a fault or a refusal, with the
next action ready. -/
def Obligations.EveryCommandWordCompletes : Prop :=
  ∀ (s : State) (word : CmdWord) (rest : List HostAction),
    ∃ t, step { s with port := .command word :: rest } = .next t ∧ t.port = rest

/-! ### The host, reset and invariants -/

/-- R40, R233: a step completes exactly when the host action it takes is one the host may make; any other is refused, and nothing ever faults. -/
def Obligations.LawfulHostActionsComplete : Prop :=
  ∀ (s : State) (a : HostAction) (rest : List HostAction), s.port = a :: rest →
    (a.lawful = true → ∃ t, step s = .next t) ∧ (a.lawful = false → ∃ r, step s = .refused r)

/-- R40, R55: a host write of a fitting number to a data location the host may write is what the host then reads there, and every other
location reads as before. -/
def Obligations.HostWriteIsReadBack : Prop :=
  ∀ (s : State) (c : Cell) (v : Nat) (rest : List HostAction),
    s.ibuf.wf = true → c ≠ .cmd → c.hostWritable = true → c.fits v = true →
    ∃ t, step { s with port := .write c v :: rest } = .next t ∧ t.port = rest ∧
      t.hostRead c = some v ∧ ∀ d, d ≠ c → t.hostRead d = s.hostRead d

/-- R55: a host read of any location but `CMD` has no side effect. -/
def Obligations.HostReadHasNoEffect : Prop :=
  ∀ (s : State) (c : Cell) (rest : List HostAction), c ≠ .cmd →
    step { s with port := .read c :: rest } = .next { s with port := rest } ∧ ∃ v, s.hostRead c = some v

/-- R225, R226: what the spec gives of the state after reset, in the reset state and after a reset event in any state: every byte of `W` zero, not
configured, no flag, both lengths 0. What it leaves unspecified is not claimed. That a reset event leaves the host's other pending
actions in the port is the model's choice, not R225's (log entries 1, 7). -/
def Obligations.ResetLeavesSpecValues : Prop :=
  (∀ t : State, (t = State.reset ∨ ∃ (s : State) (rest : List HostAction), step { s with port := .reset :: rest } = .next t) →
    (∀ n j, t.w.byte n j = 0x00) ∧ t.kcfg = false ∧ t.err = 0x00 ∧ t.ilen = 0 ∧ t.olen = 0) ∧
  (∀ (s : State) (rest : List HostAction), ∃ t, step { s with port := .reset :: rest } = .next t ∧ t.port = rest)

/-- R226: commands that use `W` before a key is accepted use zeros: with nothing configured since reset, `ARK` leaves `ST` as it is, for every
round. -/
def Obligations.NeverConfiguredCoreUsesZeros : Prop :=
  ∀ (r : Fin 11) (s : State), s.w = State.reset.w → s.kcfg = false →
    exec (.ark (BitVec.ofNat 8 r.val)) s = .next { s with err := s.err ||| 0x02 }

/-- The invariant holds at reset (the buffers' form is the model's own, log entry 5). -/
def Obligations.ResetMeetsInvariant : Prop := State.reset.Inv

/-- R25, R34: every step keeps the invariant: the reserved field of `ERR` reads as 0; `W` is all zero with no key accepted, or the expansion of the
accepted key; the buffers keep their canonical form; `OBUF` holds written bytes exactly below `OLEN`. -/
def Obligations.EveryStepKeepsInvariant : Prop :=
  ∀ s t : State, s.Inv → step s = .next t → t.Inv
end

