-- ==== Sys2Proof/Laws/Block.lean ====
section
/-! SUPPORT. Matrices, the schedule and the row-major byte order: what each accessor gives on each constructor. -/

namespace Sys2Proof.Machine

@[simp] theorem Row.get_ofFn (f : Fin 4 → Byte) (j : Fin 4) : (Row.ofFn f).get j = f j := by
  fin_cases j <;> rfl

@[simp] theorem Block.row_ofRows (f : Fin 4 → Row) (i : Fin 4) : (Block.ofRows f).row i = f i := by
  fin_cases i <;> rfl

@[simp] theorem Block.get_ofFn (f : Fin 4 → Fin 4 → Byte) (i j : Fin 4) : (Block.ofFn f).get i j = f i j := by
  simp [Block.get, Block.ofFn]

theorem Row.ext_get {a b : Row} (h : ∀ j, a.get j = b.get j) : a = b := by
  obtain ⟨a0, a1, a2, a3⟩ := a
  obtain ⟨b0, b1, b2, b3⟩ := b
  have h0 := h 0
  have h1 := h 1
  have h2 := h 2
  have h3 := h 3
  simp only [Row.get] at h0 h1 h2 h3
  subst h0 h1 h2 h3
  rfl

theorem Block.ext_row {m n : Block} (h : ∀ i, m.row i = n.row i) : m = n := by
  obtain ⟨m0, m1, m2, m3⟩ := m
  obtain ⟨n0, n1, n2, n3⟩ := n
  have h0 := h 0
  have h1 := h 1
  have h2 := h 2
  have h3 := h 3
  simp only [Block.row] at h0 h1 h2 h3
  subst h0 h1 h2 h3
  rfl

/-- Two matrices with the same cells are the same. -/
theorem Block.ext_get {m n : Block} (h : ∀ i j, m.get i j = n.get i j) : m = n :=
  Block.ext_row fun i => Row.ext_get fun j => h i j

@[simp] theorem Block.get_set (m : Block) (i j i' j' : Fin 4) (v : Byte) :
    (m.set i j v).get i' j' = if i' = i ∧ j' = j then v else m.get i' j' := by
  simp [Block.set]

@[simp] theorem Block.get_zero (i j : Fin 4) : Block.zero.get i j = 0 := by
  fin_cases i <;> fin_cases j <;> rfl

@[simp] theorem byteRow_byteNumber (i j : Fin 4) : byteRow (byteNumber i j) = i := by
  apply Fin.ext
  simp only [byteRow, byteNumber]
  omega

@[simp] theorem byteColumn_byteNumber (i j : Fin 4) : byteColumn (byteNumber i j) = j := by
  apply Fin.ext
  simp only [byteColumn, byteNumber]
  omega

@[simp] theorem byteNumber_row_column (k : Fin 16) : byteNumber (byteRow k) (byteColumn k) = k := by
  apply Fin.ext
  simp only [byteRow, byteColumn, byteNumber]
  omega

@[simp] theorem toMatrix_get (b : Fin 16 → Byte) (i j : Fin 4) : (toMatrix b).get i j = b (byteNumber i j) := by
  simp [toMatrix]

@[simp] theorem toMatrix_byte (b : Fin 16 → Byte) (k : Fin 16) : (toMatrix b).byte k = b k := by
  simp [Block.byte]

/-- A matrix is its own bytes put back in row-major order (R50). -/
@[simp] theorem toMatrix_of_byte (m : Block) : toMatrix m.byte = m :=
  Block.ext_get fun i j => by simp [Block.byte]

@[simp] theorem fromMatrix_length (m : Block) : (fromMatrix m).length = 16 := rfl

/-- Byte `k` of the row-major listing (R50). -/
theorem fromMatrix_getElem? (m : Block) (k : Fin 16) : (fromMatrix m)[k.val]? = some (m.byte k) := by
  fin_cases k <;> rfl

/-- The schedule row of round `r`, state row `i`, is row `i` of the key block of round `r` (R11). -/
@[simp] theorem Schedule.byte_scheduleRow (w : Schedule) (r : Fin 11) (i j : Fin 4) :
    w.byte (scheduleRow r i) j = (w.key r).get i j := by
  have h1 : (⟨(scheduleRow r i).val / 4, by omega⟩ : Fin 11) = r := by
    apply Fin.ext
    simp only [scheduleRow]
    omega
  have h2 : (⟨(scheduleRow r i).val % 4, by omega⟩ : Fin 4) = i := by
    apply Fin.ext
    simp only [scheduleRow]
    omega
  simp only [Schedule.byte, h1, h2]

/-- Every row of the schedule is a row of some key block. -/
theorem scheduleRow_surjective (n : Fin 44) : ∃ r i, scheduleRow r i = n :=
  ⟨⟨n.val / 4, by omega⟩, ⟨n.val % 4, by omega⟩, Fin.ext (by simp only [scheduleRow]; omega)⟩

@[simp] theorem Schedule.key_zero (r : Fin 11) : Schedule.zero.key r = Block.zero := by
  fin_cases r <;> rfl

end Sys2Proof.Machine
end

