-- ==== Sys2Proof/Laws/Memory.lean ====
section
/-! SUPPORT. The buffers: a read after a write, and that every operation keeps the canonical form. -/

namespace Sys2Proof.Machine

/-- Every index of the list is above `a`. -/
def cellsAbove (a : Nat) (cells : List Host.Cell) : Prop := ∀ c ∈ cells, a < c.1

theorem cellsRising_cons {c : Host.Cell} {rest : List Host.Cell} :
    cellsRising (c :: rest) = true ↔ cellsAbove c.1 rest ∧ cellsRising rest = true := by
  induction rest generalizing c with
  | nil => simp [cellsRising, cellsAbove]
  | cons d rest ih =>
    simp only [cellsRising, Bool.and_eq_true, decide_eq_true_eq, cellsAbove, List.mem_cons, forall_eq_or_imp]
    constructor
    · rintro ⟨h, hr⟩
      exact ⟨⟨h, fun e he => Nat.lt_trans h ((ih.1 hr).1 e he)⟩, hr⟩
    · rintro ⟨⟨h, -⟩, hr⟩
      exact ⟨h, hr⟩

theorem insertCell_above {b a : Nat} {v : Byte} {cells : List Host.Cell} (hb : b < a) (h : cellsAbove b cells) :
    cellsAbove b (insertCell a v cells) := by
  induction cells with
  | nil => simpa [insertCell, cellsAbove] using hb
  | cons c rest ih =>
    simp only [cellsAbove, List.mem_cons, forall_eq_or_imp] at h
    unfold insertCell
    split_ifs
    · simp only [cellsAbove, List.mem_cons, forall_eq_or_imp]
      exact ⟨hb, h.1, h.2⟩
    · simp only [cellsAbove, List.mem_cons, forall_eq_or_imp]
      exact ⟨hb, h.2⟩
    · simp only [cellsAbove, List.mem_cons, forall_eq_or_imp]
      exact ⟨h.1, ih h.2⟩

theorem insertCell_rising {a : Nat} {v : Byte} {cells : List Host.Cell} (h : cellsRising cells = true) :
    cellsRising (insertCell a v cells) = true := by
  induction cells with
  | nil => rfl
  | cons c rest ih =>
    have hc := cellsRising_cons.1 h
    unfold insertCell
    split_ifs with h1 h2
    · refine cellsRising_cons.2 ⟨?_, h⟩
      simp only [cellsAbove, List.mem_cons, forall_eq_or_imp]
      exact ⟨h1, fun e he => Nat.lt_trans h1 (hc.1 e he)⟩
    · exact cellsRising_cons.2 ⟨h2 ▸ hc.1, hc.2⟩
    · exact cellsRising_cons.2 ⟨insertCell_above (by omega) hc.1, ih hc.2⟩

/-- What an index holds after a write: the value written there, the old one elsewhere. -/
theorem lookupCell_insertCell (a b : Nat) (v : Byte) (cells : List Host.Cell) (h : cellsRising cells = true) :
    lookupCell b (insertCell a v cells) = if b = a then some v else lookupCell b cells := by
  induction cells with
  | nil =>
    by_cases hb : b = a
    · simp [insertCell, lookupCell, hb]
    · simp [insertCell, lookupCell, hb, Ne.symm hb]
  | cons c rest ih =>
    have hc := cellsRising_cons.1 h
    by_cases hb : b = a
    · rw [if_pos hb]
      subst hb
      unfold insertCell
      split_ifs with h1 h2
      · simp [lookupCell]
      · simp [lookupCell]
      · simp [lookupCell, Ne.symm h2, ih hc.2]
    · rw [if_neg hb]
      unfold insertCell
      split_ifs with h1 h2
      · simp [lookupCell, Ne.symm hb]
      · simp [lookupCell, Ne.symm hb, ← h2]
      · simp [lookupCell, ih hc.2, hb]

@[simp] theorem Memory.write_fill (m : Memory) (a : Nat) (v : Byte) : (m.write a v).fill = m.fill := rfl

/-- A write keeps the canonical form. -/
theorem Memory.write_wf {m : Memory} (a : Nat) (v : Byte) (h : m.wf = true) : (m.write a v).wf = true :=
  insertCell_rising h

/-- A read after a write gives the value written there, and the old value everywhere else. -/
theorem Memory.read_write {m : Memory} (h : m.wf = true) (source : FreeSource) (a b : Nat) (v : Byte) :
    (m.write a v).read source b = if b = a then v else m.read source b := by
  simp only [Memory.read, Memory.write, lookupCell_insertCell a b v m.cells h]
  split_ifs <;> rfl

theorem cellsFrom_above {b a : Nat} (h : b < a) (bytes : List Byte) : cellsAbove b (cellsFrom a bytes) := by
  induction bytes generalizing a with
  | nil => simp [cellsFrom, cellsAbove]
  | cons v rest ih =>
    simp only [cellsFrom, cellsAbove, List.mem_cons, forall_eq_or_imp]
    exact ⟨h, ih (by omega)⟩

theorem cellsFrom_rising (a : Nat) (bytes : List Byte) : cellsRising (cellsFrom a bytes) = true := by
  induction bytes generalizing a with
  | nil => rfl
  | cons v rest ih => exact cellsRising_cons.2 ⟨cellsFrom_above (by simp) rest, ih (a + 1)⟩

theorem cellsFrom_indices (a : Nat) (bytes : List Byte) :
    (cellsFrom a bytes).map Prod.fst = List.range' a bytes.length := by
  induction bytes generalizing a with
  | nil => rfl
  | cons v rest ih => simp [cellsFrom, ih, List.range'_succ]

theorem lookupCell_cellsFrom (a b : Nat) (bytes : List Byte) :
    lookupCell b (cellsFrom a bytes) = if a ≤ b then bytes[b - a]? else none := by
  induction bytes generalizing a with
  | nil => simp [cellsFrom, lookupCell]
  | cons v rest ih =>
    simp only [cellsFrom, lookupCell, ih]
    by_cases h1 : a = b
    · simp [h1]
    · by_cases h2 : a ≤ b
      · have h3 : a + 1 ≤ b := by omega
        have h4 : b - a = (b - (a + 1)) + 1 := by omega
        simp [h1, h2, h3, h4]
      · have h3 : ¬ a + 1 ≤ b := by omega
        simp [h1, h2, h3]

/-- A buffer that holds a byte list is in canonical form. -/
theorem Memory.holding_wf (bytes : List Byte) (fill : Nat) : (Memory.holding bytes fill).wf = true :=
  cellsFrom_rising 0 bytes

/-- A buffer that holds a byte list reads as its bytes, and as free bytes past it. -/
theorem Memory.read_holding (bytes : List Byte) (fill : Nat) (source : FreeSource) (a : Nat) :
    (Memory.holding bytes fill).read source a = bytes.getD a (Config.freeByte source fill a) := by
  simp only [Memory.read, Memory.holding, lookupCell_cellsFrom, Nat.zero_le, if_true, Nat.sub_zero, List.getD]
  cases bytes[a]? <;> rfl

/-- A buffer that holds a byte list lists exactly its indices. -/
theorem Memory.holding_indices (bytes : List Byte) (fill : Nat) :
    (Memory.holding bytes fill).cells.map Prod.fst = List.range bytes.length := by
  rw [Memory.holding, cellsFrom_indices, List.range_eq_range']

theorem State.reset_ibuf_wf : State.reset.ibuf.wf = true := rfl

theorem State.reset_obuf_wf : State.reset.obuf.wf = true := rfl

end Sys2Proof.Machine
end

