-- ==== Sys2Proof/Laws/State.lean ====
section
/-! SUPPORT. What each named update of the state does to each field: one lemma per field and update. -/

namespace Sys2Proof.Machine

/-! ### `State.withSt` -/

@[simp] theorem State.withSt_st (s : State) (m : Block) : (s.withSt m).st = m := rfl
@[simp] theorem State.withSt_w (s : State) (m : Block) : (s.withSt m).w = s.w := rfl
@[simp] theorem State.withSt_kin (s : State) (m : Block) : (s.withSt m).kin = s.kin := rfl
@[simp] theorem State.withSt_kcfg (s : State) (m : Block) : (s.withSt m).kcfg = s.kcfg := rfl
@[simp] theorem State.withSt_err (s : State) (m : Block) : (s.withSt m).err = s.err := rfl
@[simp] theorem State.withSt_lq (s : State) (m : Block) : (s.withSt m).lq = s.lq := rfl
@[simp] theorem State.withSt_ilen (s : State) (m : Block) : (s.withSt m).ilen = s.ilen := rfl
@[simp] theorem State.withSt_olen (s : State) (m : Block) : (s.withSt m).olen = s.olen := rfl
@[simp] theorem State.withSt_ibuf (s : State) (m : Block) : (s.withSt m).ibuf = s.ibuf := rfl
@[simp] theorem State.withSt_obuf (s : State) (m : Block) : (s.withSt m).obuf = s.obuf := rfl
@[simp] theorem State.withSt_port (s : State) (m : Block) : (s.withSt m).port = s.port := rfl
@[simp] theorem State.withSt_draws (s : State) (m : Block) : (s.withSt m).draws = s.draws := rfl

/-! ### `State.lookedUp` -/

@[simp] theorem State.lookedUp_st (s : State) (v : Byte) : (s.lookedUp v).st = s.st := rfl
@[simp] theorem State.lookedUp_w (s : State) (v : Byte) : (s.lookedUp v).w = s.w := rfl
@[simp] theorem State.lookedUp_kin (s : State) (v : Byte) : (s.lookedUp v).kin = s.kin := rfl
@[simp] theorem State.lookedUp_kcfg (s : State) (v : Byte) : (s.lookedUp v).kcfg = s.kcfg := rfl
@[simp] theorem State.lookedUp_err (s : State) (v : Byte) : (s.lookedUp v).err = s.err := rfl
@[simp] theorem State.lookedUp_lq (s : State) (v : Byte) : (s.lookedUp v).lq = v := rfl
@[simp] theorem State.lookedUp_ilen (s : State) (v : Byte) : (s.lookedUp v).ilen = s.ilen := rfl
@[simp] theorem State.lookedUp_olen (s : State) (v : Byte) : (s.lookedUp v).olen = s.olen := rfl
@[simp] theorem State.lookedUp_ibuf (s : State) (v : Byte) : (s.lookedUp v).ibuf = s.ibuf := rfl
@[simp] theorem State.lookedUp_obuf (s : State) (v : Byte) : (s.lookedUp v).obuf = s.obuf := rfl
@[simp] theorem State.lookedUp_port (s : State) (v : Byte) : (s.lookedUp v).port = s.port := rfl
@[simp] theorem State.lookedUp_draws (s : State) (v : Byte) : (s.lookedUp v).draws = s.draws := rfl

/-! ### `State.flag` -/

@[simp] theorem State.flag_st (s : State) (f : ErrFlag) : (s.flag f).st = s.st := rfl
@[simp] theorem State.flag_w (s : State) (f : ErrFlag) : (s.flag f).w = s.w := rfl
@[simp] theorem State.flag_kin (s : State) (f : ErrFlag) : (s.flag f).kin = s.kin := rfl
@[simp] theorem State.flag_kcfg (s : State) (f : ErrFlag) : (s.flag f).kcfg = s.kcfg := rfl
@[simp] theorem State.flag_err (s : State) (f : ErrFlag) : (s.flag f).err = errSet s.err f := rfl
@[simp] theorem State.flag_lq (s : State) (f : ErrFlag) : (s.flag f).lq = s.lq := rfl
@[simp] theorem State.flag_ilen (s : State) (f : ErrFlag) : (s.flag f).ilen = s.ilen := rfl
@[simp] theorem State.flag_olen (s : State) (f : ErrFlag) : (s.flag f).olen = s.olen := rfl
@[simp] theorem State.flag_ibuf (s : State) (f : ErrFlag) : (s.flag f).ibuf = s.ibuf := rfl
@[simp] theorem State.flag_obuf (s : State) (f : ErrFlag) : (s.flag f).obuf = s.obuf := rfl
@[simp] theorem State.flag_port (s : State) (f : ErrFlag) : (s.flag f).port = s.port := rfl
@[simp] theorem State.flag_draws (s : State) (f : ErrFlag) : (s.flag f).draws = s.draws := rfl

/-! ### `State.flagWhen` -/

@[simp] theorem State.flagWhen_st (s : State) (c : Bool) (f : ErrFlag) : (s.flagWhen c f).st = s.st := by cases c <;> rfl
@[simp] theorem State.flagWhen_w (s : State) (c : Bool) (f : ErrFlag) : (s.flagWhen c f).w = s.w := by cases c <;> rfl
@[simp] theorem State.flagWhen_kin (s : State) (c : Bool) (f : ErrFlag) : (s.flagWhen c f).kin = s.kin := by cases c <;> rfl
@[simp] theorem State.flagWhen_kcfg (s : State) (c : Bool) (f : ErrFlag) : (s.flagWhen c f).kcfg = s.kcfg := by cases c <;> rfl
@[simp] theorem State.flagWhen_err (s : State) (c : Bool) (f : ErrFlag) : (s.flagWhen c f).err = if c then errSet s.err f else s.err := by cases c <;> rfl
@[simp] theorem State.flagWhen_lq (s : State) (c : Bool) (f : ErrFlag) : (s.flagWhen c f).lq = s.lq := by cases c <;> rfl
@[simp] theorem State.flagWhen_ilen (s : State) (c : Bool) (f : ErrFlag) : (s.flagWhen c f).ilen = s.ilen := by cases c <;> rfl
@[simp] theorem State.flagWhen_olen (s : State) (c : Bool) (f : ErrFlag) : (s.flagWhen c f).olen = s.olen := by cases c <;> rfl
@[simp] theorem State.flagWhen_ibuf (s : State) (c : Bool) (f : ErrFlag) : (s.flagWhen c f).ibuf = s.ibuf := by cases c <;> rfl
@[simp] theorem State.flagWhen_obuf (s : State) (c : Bool) (f : ErrFlag) : (s.flagWhen c f).obuf = s.obuf := by cases c <;> rfl
@[simp] theorem State.flagWhen_port (s : State) (c : Bool) (f : ErrFlag) : (s.flagWhen c f).port = s.port := by cases c <;> rfl
@[simp] theorem State.flagWhen_draws (s : State) (c : Bool) (f : ErrFlag) : (s.flagWhen c f).draws = s.draws := by cases c <;> rfl

/-! ### `State.flagUninit` -/

@[simp] theorem State.flagUninit_st (s : State) : (s.flagUninit).st = s.st := by
  cases h : s.kcfg <;> simp [State.flagUninit, uninitCondition, h]
@[simp] theorem State.flagUninit_w (s : State) : (s.flagUninit).w = s.w := by
  cases h : s.kcfg <;> simp [State.flagUninit, uninitCondition, h]
@[simp] theorem State.flagUninit_kin (s : State) : (s.flagUninit).kin = s.kin := by
  cases h : s.kcfg <;> simp [State.flagUninit, uninitCondition, h]
@[simp] theorem State.flagUninit_kcfg (s : State) : (s.flagUninit).kcfg = s.kcfg := by
  cases h : s.kcfg <;> simp [State.flagUninit, uninitCondition, h]
@[simp] theorem State.flagUninit_err (s : State) : (s.flagUninit).err = if s.kcfg then s.err else errSet s.err .uninit := by
  cases h : s.kcfg <;> simp [State.flagUninit, uninitCondition, h]
@[simp] theorem State.flagUninit_lq (s : State) : (s.flagUninit).lq = s.lq := by
  cases h : s.kcfg <;> simp [State.flagUninit, uninitCondition, h]
@[simp] theorem State.flagUninit_ilen (s : State) : (s.flagUninit).ilen = s.ilen := by
  cases h : s.kcfg <;> simp [State.flagUninit, uninitCondition, h]
@[simp] theorem State.flagUninit_olen (s : State) : (s.flagUninit).olen = s.olen := by
  cases h : s.kcfg <;> simp [State.flagUninit, uninitCondition, h]
@[simp] theorem State.flagUninit_ibuf (s : State) : (s.flagUninit).ibuf = s.ibuf := by
  cases h : s.kcfg <;> simp [State.flagUninit, uninitCondition, h]
@[simp] theorem State.flagUninit_obuf (s : State) : (s.flagUninit).obuf = s.obuf := by
  cases h : s.kcfg <;> simp [State.flagUninit, uninitCondition, h]
@[simp] theorem State.flagUninit_port (s : State) : (s.flagUninit).port = s.port := by
  cases h : s.kcfg <;> simp [State.flagUninit, uninitCondition, h]
@[simp] theorem State.flagUninit_draws (s : State) : (s.flagUninit).draws = s.draws := by
  cases h : s.kcfg <;> simp [State.flagUninit, uninitCondition, h]

/-! ### `State.flagMisalign` -/

@[simp] theorem State.flagMisalign_st (s : State) : (s.flagMisalign).st = s.st := by
  by_cases h : s.ilen % 16 = 0 <;> simp [State.flagMisalign, misalignCondition, h]
@[simp] theorem State.flagMisalign_w (s : State) : (s.flagMisalign).w = s.w := by
  by_cases h : s.ilen % 16 = 0 <;> simp [State.flagMisalign, misalignCondition, h]
@[simp] theorem State.flagMisalign_kin (s : State) : (s.flagMisalign).kin = s.kin := by
  by_cases h : s.ilen % 16 = 0 <;> simp [State.flagMisalign, misalignCondition, h]
@[simp] theorem State.flagMisalign_kcfg (s : State) : (s.flagMisalign).kcfg = s.kcfg := by
  by_cases h : s.ilen % 16 = 0 <;> simp [State.flagMisalign, misalignCondition, h]
@[simp] theorem State.flagMisalign_err (s : State) : (s.flagMisalign).err = if s.ilen % 16 = 0 then s.err else errSet s.err .misalign := by
  by_cases h : s.ilen % 16 = 0 <;> simp [State.flagMisalign, misalignCondition, h]
@[simp] theorem State.flagMisalign_lq (s : State) : (s.flagMisalign).lq = s.lq := by
  by_cases h : s.ilen % 16 = 0 <;> simp [State.flagMisalign, misalignCondition, h]
@[simp] theorem State.flagMisalign_ilen (s : State) : (s.flagMisalign).ilen = s.ilen := by
  by_cases h : s.ilen % 16 = 0 <;> simp [State.flagMisalign, misalignCondition, h]
@[simp] theorem State.flagMisalign_olen (s : State) : (s.flagMisalign).olen = s.olen := by
  by_cases h : s.ilen % 16 = 0 <;> simp [State.flagMisalign, misalignCondition, h]
@[simp] theorem State.flagMisalign_ibuf (s : State) : (s.flagMisalign).ibuf = s.ibuf := by
  by_cases h : s.ilen % 16 = 0 <;> simp [State.flagMisalign, misalignCondition, h]
@[simp] theorem State.flagMisalign_obuf (s : State) : (s.flagMisalign).obuf = s.obuf := by
  by_cases h : s.ilen % 16 = 0 <;> simp [State.flagMisalign, misalignCondition, h]
@[simp] theorem State.flagMisalign_port (s : State) : (s.flagMisalign).port = s.port := by
  by_cases h : s.ilen % 16 = 0 <;> simp [State.flagMisalign, misalignCondition, h]
@[simp] theorem State.flagMisalign_draws (s : State) : (s.flagMisalign).draws = s.draws := by
  by_cases h : s.ilen % 16 = 0 <;> simp [State.flagMisalign, misalignCondition, h]

/-! ### `State.illegalCommand` -/

@[simp] theorem State.illegalCommand_st (s : State) : (s.illegalCommand).st = s.st := rfl
@[simp] theorem State.illegalCommand_w (s : State) : (s.illegalCommand).w = s.w := rfl
@[simp] theorem State.illegalCommand_kin (s : State) : (s.illegalCommand).kin = s.kin := rfl
@[simp] theorem State.illegalCommand_kcfg (s : State) : (s.illegalCommand).kcfg = s.kcfg := rfl
@[simp] theorem State.illegalCommand_err (s : State) : (s.illegalCommand).err = errSet s.err .illcmd := rfl
@[simp] theorem State.illegalCommand_lq (s : State) : (s.illegalCommand).lq = s.lq := rfl
@[simp] theorem State.illegalCommand_ilen (s : State) : (s.illegalCommand).ilen = s.ilen := rfl
@[simp] theorem State.illegalCommand_olen (s : State) : (s.illegalCommand).olen = s.olen := rfl
@[simp] theorem State.illegalCommand_ibuf (s : State) : (s.illegalCommand).ibuf = s.ibuf := rfl
@[simp] theorem State.illegalCommand_obuf (s : State) : (s.illegalCommand).obuf = s.obuf := rfl
@[simp] theorem State.illegalCommand_port (s : State) : (s.illegalCommand).port = s.port := rfl
@[simp] theorem State.illegalCommand_draws (s : State) : (s.illegalCommand).draws = s.draws := rfl

/-! ### `State.acceptKey` -/

@[simp] theorem State.acceptKey_st (s : State) : (s.acceptKey).st = s.st := rfl
@[simp] theorem State.acceptKey_w (s : State) : (s.acceptKey).w = expand s.kin := rfl
@[simp] theorem State.acceptKey_kin (s : State) : (s.acceptKey).kin = s.kin := rfl
@[simp] theorem State.acceptKey_kcfg (s : State) : (s.acceptKey).kcfg = true := rfl
@[simp] theorem State.acceptKey_err (s : State) : (s.acceptKey).err = s.err := rfl
@[simp] theorem State.acceptKey_lq (s : State) : (s.acceptKey).lq = s.lq := rfl
@[simp] theorem State.acceptKey_ilen (s : State) : (s.acceptKey).ilen = s.ilen := rfl
@[simp] theorem State.acceptKey_olen (s : State) : (s.acceptKey).olen = s.olen := rfl
@[simp] theorem State.acceptKey_ibuf (s : State) : (s.acceptKey).ibuf = s.ibuf := rfl
@[simp] theorem State.acceptKey_obuf (s : State) : (s.acceptKey).obuf = s.obuf := rfl
@[simp] theorem State.acceptKey_port (s : State) : (s.acceptKey).port = s.port := rfl
@[simp] theorem State.acceptKey_draws (s : State) : (s.acceptKey).draws = s.draws := rfl

/-! ### `State.rejectKey` -/

@[simp] theorem State.rejectKey_st (s : State) : (s.rejectKey).st = s.st := rfl
@[simp] theorem State.rejectKey_w (s : State) : (s.rejectKey).w = s.w := rfl
@[simp] theorem State.rejectKey_kin (s : State) : (s.rejectKey).kin = s.kin := rfl
@[simp] theorem State.rejectKey_kcfg (s : State) : (s.rejectKey).kcfg = s.kcfg := rfl
@[simp] theorem State.rejectKey_err (s : State) : (s.rejectKey).err = errSet s.err .invkey := rfl
@[simp] theorem State.rejectKey_lq (s : State) : (s.rejectKey).lq = s.lq := rfl
@[simp] theorem State.rejectKey_ilen (s : State) : (s.rejectKey).ilen = s.ilen := rfl
@[simp] theorem State.rejectKey_olen (s : State) : (s.rejectKey).olen = s.olen := rfl
@[simp] theorem State.rejectKey_ibuf (s : State) : (s.rejectKey).ibuf = s.ibuf := rfl
@[simp] theorem State.rejectKey_obuf (s : State) : (s.rejectKey).obuf = s.obuf := rfl
@[simp] theorem State.rejectKey_port (s : State) : (s.rejectKey).port = s.port := rfl
@[simp] theorem State.rejectKey_draws (s : State) : (s.rejectKey).draws = s.draws := rfl

/-! ### `State.keyOption` -/

@[simp] theorem State.keyOption_st (s : State) (klen : Byte) : (s.keyOption klen).st = s.st := by
  cases ha : keyAbsent klen <;> cases hv : keyValid klen <;> simp [State.keyOption, ha, hv]
@[simp] theorem State.keyOption_w (s : State) (klen : Byte) : (s.keyOption klen).w = if keyAbsent klen then s.w else if keyValid klen then expand s.kin else s.w := by
  cases ha : keyAbsent klen <;> cases hv : keyValid klen <;> simp [State.keyOption, ha, hv]
@[simp] theorem State.keyOption_kin (s : State) (klen : Byte) : (s.keyOption klen).kin = s.kin := by
  cases ha : keyAbsent klen <;> cases hv : keyValid klen <;> simp [State.keyOption, ha, hv]
@[simp] theorem State.keyOption_kcfg (s : State) (klen : Byte) : (s.keyOption klen).kcfg = if keyAbsent klen then s.kcfg else if keyValid klen then true else s.kcfg := by
  cases ha : keyAbsent klen <;> cases hv : keyValid klen <;> simp [State.keyOption, ha, hv]
@[simp] theorem State.keyOption_err (s : State) (klen : Byte) : (s.keyOption klen).err = if keyAbsent klen then s.err else if keyValid klen then s.err else errSet s.err .invkey := by
  cases ha : keyAbsent klen <;> cases hv : keyValid klen <;> simp [State.keyOption, ha, hv]
@[simp] theorem State.keyOption_lq (s : State) (klen : Byte) : (s.keyOption klen).lq = s.lq := by
  cases ha : keyAbsent klen <;> cases hv : keyValid klen <;> simp [State.keyOption, ha, hv]
@[simp] theorem State.keyOption_ilen (s : State) (klen : Byte) : (s.keyOption klen).ilen = s.ilen := by
  cases ha : keyAbsent klen <;> cases hv : keyValid klen <;> simp [State.keyOption, ha, hv]
@[simp] theorem State.keyOption_olen (s : State) (klen : Byte) : (s.keyOption klen).olen = s.olen := by
  cases ha : keyAbsent klen <;> cases hv : keyValid klen <;> simp [State.keyOption, ha, hv]
@[simp] theorem State.keyOption_ibuf (s : State) (klen : Byte) : (s.keyOption klen).ibuf = s.ibuf := by
  cases ha : keyAbsent klen <;> cases hv : keyValid klen <;> simp [State.keyOption, ha, hv]
@[simp] theorem State.keyOption_obuf (s : State) (klen : Byte) : (s.keyOption klen).obuf = s.obuf := by
  cases ha : keyAbsent klen <;> cases hv : keyValid klen <;> simp [State.keyOption, ha, hv]
@[simp] theorem State.keyOption_port (s : State) (klen : Byte) : (s.keyOption klen).port = s.port := by
  cases ha : keyAbsent klen <;> cases hv : keyValid klen <;> simp [State.keyOption, ha, hv]
@[simp] theorem State.keyOption_draws (s : State) (klen : Byte) : (s.keyOption klen).draws = s.draws := by
  cases ha : keyAbsent klen <;> cases hv : keyValid klen <;> simp [State.keyOption, ha, hv]

/-! ### `State.storeMessage` -/

@[simp] theorem State.storeMessage_st (s : State) (out : List Byte) : (s.storeMessage out).st = freeBlock .st s.draws := rfl
@[simp] theorem State.storeMessage_w (s : State) (out : List Byte) : (s.storeMessage out).w = s.w := rfl
@[simp] theorem State.storeMessage_kin (s : State) (out : List Byte) : (s.storeMessage out).kin = s.kin := rfl
@[simp] theorem State.storeMessage_kcfg (s : State) (out : List Byte) : (s.storeMessage out).kcfg = s.kcfg := rfl
@[simp] theorem State.storeMessage_err (s : State) (out : List Byte) : (s.storeMessage out).err = s.err := rfl
@[simp] theorem State.storeMessage_lq (s : State) (out : List Byte) : (s.storeMessage out).lq = s.lq := rfl
@[simp] theorem State.storeMessage_ilen (s : State) (out : List Byte) : (s.storeMessage out).ilen = s.ilen := rfl
@[simp] theorem State.storeMessage_olen (s : State) (out : List Byte) : (s.storeMessage out).olen = out.length := rfl
@[simp] theorem State.storeMessage_ibuf (s : State) (out : List Byte) : (s.storeMessage out).ibuf = s.ibuf := rfl
@[simp] theorem State.storeMessage_obuf (s : State) (out : List Byte) : (s.storeMessage out).obuf = Memory.holding out s.draws := rfl
@[simp] theorem State.storeMessage_port (s : State) (out : List Byte) : (s.storeMessage out).port = s.port := rfl
@[simp] theorem State.storeMessage_draws (s : State) (out : List Byte) : (s.storeMessage out).draws = s.draws + 1 := rfl

/-! ### `State.resetEvent` -/

@[simp] theorem State.resetEvent_st (s : State) : (s.resetEvent).st = freeBlock .st s.draws := rfl
@[simp] theorem State.resetEvent_w (s : State) : (s.resetEvent).w = Schedule.zero := rfl
@[simp] theorem State.resetEvent_kin (s : State) : (s.resetEvent).kin = freeBlock .kin s.draws := rfl
@[simp] theorem State.resetEvent_kcfg (s : State) : (s.resetEvent).kcfg = false := rfl
@[simp] theorem State.resetEvent_err (s : State) : (s.resetEvent).err = 0x00 := rfl
@[simp] theorem State.resetEvent_lq (s : State) : (s.resetEvent).lq = Config.freeByte .lq s.draws 0 := rfl
@[simp] theorem State.resetEvent_ilen (s : State) : (s.resetEvent).ilen = 0 := rfl
@[simp] theorem State.resetEvent_olen (s : State) : (s.resetEvent).olen = 0 := rfl
@[simp] theorem State.resetEvent_ibuf (s : State) : (s.resetEvent).ibuf = ⟨[], s.draws⟩ := rfl
@[simp] theorem State.resetEvent_obuf (s : State) : (s.resetEvent).obuf = ⟨[], s.draws⟩ := rfl
@[simp] theorem State.resetEvent_port (s : State) : (s.resetEvent).port = s.port := rfl
@[simp] theorem State.resetEvent_draws (s : State) : (s.resetEvent).draws = s.draws + 1 := rfl

end Sys2Proof.Machine
end

