-- ==== Sys2Proof/Laws/Commands.lean ====
section
/-! SUPPORT. What each command, each host action and each step can do, said once: later proofs cite these and unfold no meaning. -/

namespace Sys2Proof.Machine

/-! ### The sticky flags -/

/-- Setting a flag keeps every bit that was set. -/
theorem errSet_keeps (err : Byte) (f : ErrFlag) : err &&& errSet err f = err := by
  simp only [errSet]
  ext i hi
  simp only [BitVec.getElem_and, BitVec.getElem_or]
  cases err[i] <;> simp

/-- A flag reads as set exactly if it was set or is the one set now. -/
@[simp] theorem errHas_errSet (err : Byte) (f g : ErrFlag) : errHas (errSet err f) g = (errHas err g || decide (g = f)) := by
  cases f <;> cases g <;> simp [errHas, errSet, ErrFlag.mask, ErrFlag.bit]

@[simp] theorem errHas_zero (g : ErrFlag) : errHas 0 g = false := by
  cases g <;> rfl

/-- No flag lies in the reserved field. -/
@[simp] theorem errReserved_errSet (err : Byte) (f : ErrFlag) : errReserved (errSet err f) = errReserved err := by
  simp only [errReserved, errSet]
  cases f <;> (ext i hi; interval_cases i <;> simp [ErrFlag.mask, ErrFlag.bit])

/-- Setting a flag twice is setting it once. -/
@[simp] theorem errSet_errSet (err : Byte) (f : ErrFlag) : errSet (errSet err f) f = errSet err f := by
  simp only [errSet, BitVec.or_assoc, BitVec.or_self]

/-! ### Operands -/

theorem roundNumber?_eq {r : Byte} (h : r.toNat ≤ 10) : roundNumber? r = some ⟨r.toNat, by omega⟩ := by
  simp [roundNumber?, show r.toNat < 11 by omega]

theorem roundNumber?_none {r : Byte} (h : 10 < r.toNat) : roundNumber? r = none := by
  simp [roundNumber?, show ¬ r.toNat < 11 by omega]

theorem rconIndex?_eq {n : Byte} (h : n.toNat ≤ 9) : rconIndex? n = some ⟨n.toNat, by omega⟩ := by
  simp [rconIndex?, show n.toNat < 10 by omega]

theorem rconIndex?_none {n : Byte} (h : 9 < n.toNat) : rconIndex? n = none := by
  simp [rconIndex?, show ¬ n.toNat < 10 by omega]

/-! ### The key -/

theorem State.keyOption_absent (s : State) {klen : Byte} (h : klen.toNat = 0) : s.keyOption klen = s := by
  simp [State.keyOption, keyAbsent, h]

theorem State.keyOption_valid (s : State) {klen : Byte} (h : 16 ≤ klen.toNat) : s.keyOption klen = s.acceptKey := by
  simp [State.keyOption, keyAbsent, keyValid, h, show ¬ klen.toNat = 0 by omega]

theorem State.keyOption_short (s : State) {klen : Byte} (h0 : klen.toNat ≠ 0) (h : klen.toNat < 16) :
    s.keyOption klen = s.rejectKey := by
  simp [State.keyOption, keyAbsent, keyValid, h0, show ¬ 16 ≤ klen.toNat by omega]

/-- The three things a key option can do (R127). -/
theorem State.keyOption_cases (s : State) (klen : Byte) :
    (klen.toNat = 0 ∧ s.keyOption klen = s) ∨ (16 ≤ klen.toNat ∧ s.keyOption klen = s.acceptKey) ∨
    (klen.toNat ≠ 0 ∧ klen.toNat < 16 ∧ s.keyOption klen = s.rejectKey) := by
  rcases Nat.lt_or_ge klen.toNat 16 with h | h
  · by_cases h0 : klen.toNat = 0
    · exact .inl ⟨h0, s.keyOption_absent h0⟩
    · exact .inr (.inr ⟨h0, h, s.keyOption_short h0 h⟩)
  · exact .inr (.inl ⟨h, s.keyOption_valid h⟩)

/-- Round key 0 of an expansion is the key (R124). -/
@[simp] theorem expand_key_zero (k : Block) : (expand k).key 0 = k := by
  simp [expand, Schedule.key, keyFill]

/-! ### Commands -/

/-- Every command answers a next state (R200). -/
theorem exec_next (i : Instr) (s : State) : ∃ t, exec i s = .next t := by
  cases i with
  | ark r =>
    rcases Nat.lt_or_ge 10 r.toNat with h | h
    · exact ⟨s.illegalCommand, by simp only [exec, execArk, roundNumber?_none h]⟩
    · rw [exec, execArk, roundNumber?_eq h]
      exact ⟨_, rfl⟩
  | lrcon n =>
    rcases Nat.lt_or_ge 9 n.toNat with h | h
    · exact ⟨s.illegalCommand, by simp only [exec, execLrcon, rconIndex?_none h]⟩
    · rw [exec, execLrcon, rconIndex?_eq h]
      exact ⟨_, rfl⟩
  | _ => exact ⟨_, rfl⟩

/-- Everything a command can do to the state: one of these shapes, by its group. -/
theorem exec_cases {i : Instr} {s t : State} (h : exec i s = .next t) :
    (∃ v, t = s.lookedUp v) ∨ (∃ m, t = s.withSt m) ∨ (∃ m, t = s.flagUninit.withSt m) ∨ t = s.illegalCommand ∨
    (∃ klen, i = .setkey klen ∧ t = if keyValid klen then s.acceptKey else s.rejectKey) ∨
    (∃ klen, i = .encm klen ∧ t = (s.keyOption klen).flagUninit.encryptMessage) ∨
    (∃ klen, i = .decm klen ∧ t = (s.keyOption klen).flagUninit.flagMisalign.decryptMessage) ∨
    (i = .clrerr ∧ t = { s with err := 0x00 }) := by
  cases i with
  | setkey klen => exact .inr (.inr (.inr (.inr (.inl ⟨klen, rfl, (Host.Outcome.next.inj h).symm⟩))))
  | encm klen => exact .inr (.inr (.inr (.inr (.inr (.inl ⟨klen, rfl, (Host.Outcome.next.inj h).symm⟩)))))
  | decm klen => exact .inr (.inr (.inr (.inr (.inr (.inr (.inl ⟨klen, rfl, (Host.Outcome.next.inj h).symm⟩))))))
  | clrerr => exact .inr (.inr (.inr (.inr (.inr (.inr (.inr ⟨rfl, (Host.Outcome.next.inj h).symm⟩))))))
  | encb => exact .inr (.inr (.inl ⟨_, (Host.Outcome.next.inj h).symm⟩))
  | decb => exact .inr (.inr (.inl ⟨_, (Host.Outcome.next.inj h).symm⟩))
  | ark r =>
    rcases Nat.lt_or_ge 10 r.toNat with hr | hr
    · simp only [exec, execArk, roundNumber?_none hr, Host.Outcome.next.injEq] at h
      exact .inr (.inr (.inr (.inl h.symm)))
    · simp only [exec, execArk, roundNumber?_eq hr, Host.Outcome.next.injEq] at h
      exact .inr (.inr (.inl ⟨_, h.symm⟩))
  | subb => exact .inr (.inl ⟨_, (Host.Outcome.next.inj h).symm⟩)
  | shrow => exact .inr (.inl ⟨_, (Host.Outcome.next.inj h).symm⟩)
  | mixc => exact .inr (.inl ⟨_, (Host.Outcome.next.inj h).symm⟩)
  | isubb => exact .inr (.inl ⟨_, (Host.Outcome.next.inj h).symm⟩)
  | ishrow => exact .inr (.inl ⟨_, (Host.Outcome.next.inj h).symm⟩)
  | imixc => exact .inr (.inl ⟨_, (Host.Outcome.next.inj h).symm⟩)
  | lsbox x => exact .inl ⟨_, (Host.Outcome.next.inj h).symm⟩
  | lisbox x => exact .inl ⟨_, (Host.Outcome.next.inj h).symm⟩
  | lmul2 x => exact .inl ⟨_, (Host.Outcome.next.inj h).symm⟩
  | lmul3 x => exact .inl ⟨_, (Host.Outcome.next.inj h).symm⟩
  | lmul9 x => exact .inl ⟨_, (Host.Outcome.next.inj h).symm⟩
  | lmul11 x => exact .inl ⟨_, (Host.Outcome.next.inj h).symm⟩
  | lmul13 x => exact .inl ⟨_, (Host.Outcome.next.inj h).symm⟩
  | lmul14 x => exact .inl ⟨_, (Host.Outcome.next.inj h).symm⟩
  | lrcon n =>
    rcases Nat.lt_or_ge 9 n.toNat with hn | hn
    · simp only [exec, execLrcon, rconIndex?_none hn, Host.Outcome.next.injEq] at h
      exact .inr (.inr (.inr (.inl h.symm)))
    · simp only [exec, execLrcon, rconIndex?_eq hn, Host.Outcome.next.injEq] at h
      exact .inl ⟨_, h.symm⟩

/-! ### Host actions and steps -/

/-- Everything writing a command word can do: run the command it encodes, or flag an illegal word (R75, R78). -/
theorem State.runWord_cases {s t : State} {word : CmdWord} (h : s.runWord word = .next t) :
    (∃ i, decode word = .legal i ∧ exec i s = .next t) ∨ (∃ why, decode word = .illegal why ∧ t = s.illegalCommand) := by
  unfold State.runWord at h
  split at h
  · exact .inl ⟨_, by assumption, h⟩
  · exact .inr ⟨_, by assumption, (Host.Outcome.next.inj h).symm⟩

/-- Everything a host write can do (R40). -/
theorem State.takeWrite_cases {s t : State} {c : Cell} {v : Nat} (h : s.takeWrite c v = .next t) :
    (c = .cmd ∧ s.runWord (BitVec.ofNat 16 v) = .next t) ∨
    (c ≠ .cmd ∧ c.hostWritable = true ∧ c.fits v = true ∧ t = s.hostWrite v c) := by
  unfold State.takeWrite at h
  split at h
  · split at h
    · split at h
      · exact .inl ⟨by assumption, h⟩
      · exact .inr ⟨by assumption, by assumption, by assumption, (Host.Outcome.next.inj h).symm⟩
    · cases h
  · cases h

/-- A host read changes nothing (R55). -/
theorem State.takeRead_cases {s t : State} {c : Cell} (h : s.takeRead c = .next t) : t = s := by
  unfold State.takeRead at h
  split at h
  · exact (Host.Outcome.next.inj h).symm
  · cases h

/-- Everything one host action can do: run a command word, write a data location, nothing, or reset. -/
theorem State.takeAction_cases {s t : State} {a : HostAction} (h : s.takeAction a = .next t) :
    (∃ word i, decode word = .legal i ∧ exec i s = .next t) ∨ t = s.illegalCommand ∨
    (∃ c v, c ≠ .cmd ∧ c.hostWritable = true ∧ c.fits v = true ∧ t = s.hostWrite v c) ∨ t = s ∨ t = s.resetEvent := by
  have word_cases {word : CmdWord} (h : s.runWord word = .next t) :
      (∃ word i, decode word = .legal i ∧ exec i s = .next t) ∨ t = s.illegalCommand := by
    rcases State.runWord_cases h with ⟨i, hi, he⟩ | ⟨_, _, ht⟩
    · exact .inl ⟨word, i, hi, he⟩
    · exact .inr ht
  cases a with
  | command word =>
    rcases word_cases h with h | h
    · exact .inl h
    · exact .inr (.inl h)
  | write c v =>
    rcases State.takeWrite_cases h with ⟨_, h⟩ | ⟨h1, h2, h3, h4⟩
    · rcases word_cases h with h | h
      · exact .inl h
      · exact .inr (.inl h)
    · exact .inr (.inr (.inl ⟨c, v, h1, h2, h3, h4⟩))
  | read c => exact .inr (.inr (.inr (.inl (State.takeRead_cases h))))
  | reset => exact .inr (.inr (.inr (.inr (Host.Outcome.next.inj h).symm)))

/-- Everything a step can do: stay idle with no action pending, or take the next action with the rest still pending. -/
theorem step_cases {s t : State} (h : step s = .next t) :
    (s.port = [] ∧ t = s) ∨ (∃ a rest, s.port = a :: rest ∧ State.takeAction { s with port := rest } a = .next t) := by
  unfold step at h
  split at h
  · exact .inl ⟨by assumption, (Host.Outcome.next.inj h).symm⟩
  · exact .inr ⟨_, _, by assumption, h⟩

end Sys2Proof.Machine
end

