-- ==== Sys2Proof/Laws/Encoding.lean ====
section
/-! SUPPORT. The two fields of a command word: what they are of an assembled word, and as numbers. -/

namespace Sys2Proof

theorem wordBit (o a : Byte) (i : Nat) :
    (show CmdWord from o ++ a).getLsbD i = if i < 8 then a.getLsbD i else o.getLsbD (i - 8) := by
  have h := @BitVec.getLsbD_append 8 8 i o a
  by_cases hi : i < 8
  · simpa [hi] using h
  · simpa [hi] using h

/-- `OP` of `{OP, ARG}` (R70). -/
@[simp] theorem opField_append (o a : Byte) : opField (o ++ a) = o := by
  apply BitVec.eq_of_getLsbD_eq
  intro i hi
  have h := wordBit o a (8 + i)
  simp only [opField, BitVec.getLsbD_extractLsb', hi, decide_true, Bool.true_and]
  simpa using h

/-- `ARG` of `{OP, ARG}` (R70). -/
@[simp] theorem argField_append (o a : Byte) : argField (o ++ a) = a := by
  apply BitVec.eq_of_getLsbD_eq
  intro i hi
  have h := wordBit o a i
  simp only [argField, BitVec.getLsbD_extractLsb', hi, decide_true, Bool.true_and, Nat.zero_add]
  simpa [hi] using h

@[simp] theorem opField_encode (i : Instr) : opField (encode i) = i.op := opField_append _ _

@[simp] theorem argField_encode (i : Instr) : argField (encode i) = i.arg := argField_append _ _

theorem opField_toNat (w : CmdWord) : (opField w).toNat = w.toNat / 256 := by
  simp only [opField, BitVec.extractLsb'_toNat, Nat.shiftRight_eq_div_pow]
  have := w.isLt
  omega

theorem argField_toNat (w : CmdWord) : (argField w).toNat = w.toNat % 256 := by
  simp [argField]

/-- A word is its two fields put together. -/
theorem fields_append (w : CmdWord) : opField w ++ argField w = w := by
  apply BitVec.eq_of_toNat_eq
  have h := @BitVec.toNat_append 8 8 (opField w) (argField w)
  rw [← Nat.shiftLeft_add_eq_or_of_lt (argField w).isLt, Nat.shiftLeft_eq, opField_toNat, argField_toNat] at h
  exact h.trans (by omega)

end Sys2Proof
end

