-- ==== Sys2Proof/Laws/PerInstr.lean ====
section
/-! SUPPORT. Statements about every instruction as syntax, one lemma per constructor. -/

namespace Sys2Proof.Laws

/-- The row of R74's table with an instruction's mnemonic fixes the `OP` that the encoder writes, accepts its operand when it is well
formed, and no other row has that `OP`. -/
def TableRow.Statement (i : Instr) : Prop :=
  i.wellFormed = true →
    ((opcodeTable.filter fun row => decide (row.matchBits.extractLsb' 8 8 = i.op)).map fun row => (row.mnemonic, row.format.accepts i.arg))
      = [(i.mnemonic, true)]

theorem TableRow.setkey (klen : Byte) : TableRow.Statement (.setkey klen) := fun _ => rfl

theorem TableRow.encb : TableRow.Statement .encb := fun _ => rfl

theorem TableRow.decb : TableRow.Statement .decb := fun _ => rfl

theorem TableRow.encm (klen : Byte) : TableRow.Statement (.encm klen) := fun _ => rfl

theorem TableRow.decm (klen : Byte) : TableRow.Statement (.decm klen) := fun _ => rfl

theorem TableRow.clrerr : TableRow.Statement .clrerr := fun _ => rfl

theorem TableRow.ark (r : Byte) : TableRow.Statement (.ark r) := fun h => by
  have hr : (Format.R).accepts r = true := h
  have row : (opcodeTable.filter fun row => decide (row.matchBits.extractLsb' 8 8 = (Instr.ark r).op))
      = [⟨"ARK", .R, 0x1000, 0xFF00⟩] := rfl
  rw [row]
  simp [Instr.arg, Instr.mnemonic, hr]

theorem TableRow.subb : TableRow.Statement .subb := fun _ => rfl

theorem TableRow.shrow : TableRow.Statement .shrow := fun _ => rfl

theorem TableRow.mixc : TableRow.Statement .mixc := fun _ => rfl

theorem TableRow.isubb : TableRow.Statement .isubb := fun _ => rfl

theorem TableRow.ishrow : TableRow.Statement .ishrow := fun _ => rfl

theorem TableRow.imixc : TableRow.Statement .imixc := fun _ => rfl

theorem TableRow.lsbox (x : Byte) : TableRow.Statement (.lsbox x) := fun _ => rfl

theorem TableRow.lisbox (x : Byte) : TableRow.Statement (.lisbox x) := fun _ => rfl

theorem TableRow.lmul2 (x : Byte) : TableRow.Statement (.lmul2 x) := fun _ => rfl

theorem TableRow.lmul3 (x : Byte) : TableRow.Statement (.lmul3 x) := fun _ => rfl

theorem TableRow.lmul9 (x : Byte) : TableRow.Statement (.lmul9 x) := fun _ => rfl

theorem TableRow.lmul11 (x : Byte) : TableRow.Statement (.lmul11 x) := fun _ => rfl

theorem TableRow.lmul13 (x : Byte) : TableRow.Statement (.lmul13 x) := fun _ => rfl

theorem TableRow.lmul14 (x : Byte) : TableRow.Statement (.lmul14 x) := fun _ => rfl

theorem TableRow.lrcon (n : Byte) : TableRow.Statement (.lrcon n) := fun h => by
  have hn : (Format.N).accepts n = true := h
  have row : (opcodeTable.filter fun row => decide (row.matchBits.extractLsb' 8 8 = (Instr.lrcon n).op))
      = [⟨"LRCON", .N, 0x2800, 0xFF00⟩] := rfl
  rw [row]
  simp [Instr.arg, Instr.mnemonic, hn]

end Sys2Proof.Laws
end

