-- ==== Sys2Proof/Tests/Slice0.lean ====
section
/-! SUPPORT. The model's own tests. Every expected value is written from the spec: the encodings of `30_encoding.md`, the examples in the
rules, and the vectors of `95_test_vectors.md`, named in each comment. -/

namespace Sys2Proof.Tests

open Sys2Proof.Machine

/-! ### Helpers -/

/-- A block from its 16 bytes written as one number, byte 0 first. -/
def blk (n : Nat) : Block := toMatrix fun k => BitVec.ofNat 8 (n >>> (8 * (15 - k.val)))

/-- `len` bytes from one number, byte 0 first. -/
def bytesOf (len n : Nat) : List Byte := (List.range len).map fun k => BitVec.ofNat 8 (n >>> (8 * (len - 1 - k)))

/-- The next state, if there is one. -/
def next? (o : Host.Outcome State Fault Refusal) : Option State :=
  match o with
  | .next t => some t
  | .fault _ => none
  | .refused _ => none

/-- A field of the next state. -/
def after {α : Type} (o : Host.Outcome State Fault Refusal) (f : State → α) : Option α := (next? o).map f

/-- K1, "0123456789ABCDEF". -/
def key1 : Block := blk 0x30313233343536373839414243444546

/-- K2, "FEDCBA9876543210". -/
def key2 : Block := blk 0x46454443424139383736353433323130

/-- PT1, "HELLO WORLD12345", as a block. -/
def pt1 : Block := blk 0x48454C4C4F20574F524C443132333435

/-- The 16 bytes `00` to `0F`, the start of the primitives' vectors. -/
def ramp : Block := blk 0x000102030405060708090A0B0C0D0E0F

/-- The core with key K1 accepted, and `ST` as given. -/
def keyed (st : Block) : State := { State.reset with w := expand key1, kcfg := true, kin := key1, st := st }

/-- The fresh core with `ST` as given. -/
def fresh (st : Block) : State := { State.reset with st := st }

/-- A state whose input message is `bytes`. -/
def withInput (bytes : List Byte) (s : State) : State := { s with ibuf := Memory.holding bytes 0, ilen := bytes.length }

/-! ### Well-formedness: the ill-formed terms are refused, their neighbours are not (R71, R76 (c), (d)) -/

theorem test_wf_ark_11 : (Instr.ark 11).wellFormed = false := by decide

theorem test_wf_ark_10 : (Instr.ark 10).wellFormed = true := by decide

theorem test_wf_lrcon_10 : (Instr.lrcon 10).wellFormed = false := by decide

theorem test_wf_lrcon_9 : (Instr.lrcon 9).wellFormed = true := by decide

/-! ### Decoding: one word per constructor, written bit by bit from R74's `OP` and the operand -/

theorem test_decode_setkey : decode 0b0000000100010000 = .legal (.setkey 16) := by decide

theorem test_decode_encb : decode 0b0000001000000000 = .legal .encb := by decide

theorem test_decode_decb : decode 0b0000001100000000 = .legal .decb := by decide

theorem test_decode_encm : decode 0b0000010000000101 = .legal (.encm 5) := by decide

theorem test_decode_decm : decode 0b0000010111111111 = .legal (.decm 255) := by decide

theorem test_decode_clrerr : decode 0b0000011000000000 = .legal .clrerr := by decide

theorem test_decode_ark : decode 0b0001000000001010 = .legal (.ark 10) := by decide

theorem test_decode_subb : decode 0b0001000100000000 = .legal .subb := by decide

theorem test_decode_shrow : decode 0b0001001000000000 = .legal .shrow := by decide

theorem test_decode_mixc : decode 0b0001001100000000 = .legal .mixc := by decide

theorem test_decode_isubb : decode 0b0001010000000000 = .legal .isubb := by decide

theorem test_decode_ishrow : decode 0b0001010100000000 = .legal .ishrow := by decide

theorem test_decode_imixc : decode 0b0001011000000000 = .legal .imixc := by decide

theorem test_decode_lsbox : decode 0b0010000001010011 = .legal (.lsbox 0x53) := by decide

theorem test_decode_lisbox : decode 0b0010000111101101 = .legal (.lisbox 0xED) := by decide

theorem test_decode_lmul2 : decode 0b0010001010000000 = .legal (.lmul2 0x80) := by decide

theorem test_decode_lmul3 : decode 0b0010001101010111 = .legal (.lmul3 0x57) := by decide

theorem test_decode_lmul9 : decode 0b0010010001010111 = .legal (.lmul9 0x57) := by decide

theorem test_decode_lmul11 : decode 0b0010010101010111 = .legal (.lmul11 0x57) := by decide

theorem test_decode_lmul13 : decode 0b0010011001010111 = .legal (.lmul13 0x57) := by decide

theorem test_decode_lmul14 : decode 0b0010011101010111 = .legal (.lmul14 0x57) := by decide

theorem test_decode_lrcon : decode 0b0010100000001001 = .legal (.lrcon 9) := by decide

/-- V-E5: illegal words, with the group of R76 each falls in. -/
theorem test_decode_illegal :
    decode 0x0000 = .illegal .unassignedOp ∧ decode 0x0700 = .illegal .unassignedOp ∧
    decode 0x0201 = .illegal .argNotZero ∧ decode 0x0601 = .illegal .argNotZero ∧
    decode 0x100B = .illegal .roundKeyOutOfRange ∧ decode 0x280A = .illegal .roundConstantOutOfRange ∧
    decode 0x1701 = .illegal .unassignedOp ∧ decode 0x2900 = .illegal .unassignedOp ∧
    decode 0xFFFF = .illegal .unassignedOp := by decide

/-- R80's examples of assembled words. -/
theorem test_encode_examples :
    encode (.setkey 16) = 0x0110 ∧ encode (.encm 0) = 0x0400 ∧ encode (.ark 10) = 0x100A ∧
    encode (.lsbox 0x53) = 0x2053 ∧ encode .encb = 0x0200 := by decide

theorem test_decodeTableWord : decodeTableWord 16 0x2809 = some (.lrcon 9) ∧ decodeTableWord 16 0x280A = none := by decide

/-- R163: 40 commands each way. -/
theorem test_pseudo_lengths : encbSteps.length = 40 ∧ decbSteps.length = 40 := by decide

/-! ### Tables and lookups (V-T1, V-T2) -/

theorem test_lsbox : after (exec (.lsbox 0x57) State.reset) State.lq = some 0x5B := by decide +kernel

theorem test_lisbox : after (exec (.lisbox 0xAE) State.reset) State.lq = some 0xBE := by decide +kernel

theorem test_lmul2 : after (exec (.lmul2 0xAE) State.reset) State.lq = some 0x47 := by decide +kernel

theorem test_lmul3 : after (exec (.lmul3 0xAE) State.reset) State.lq = some 0xE9 := by decide +kernel

theorem test_lmul9 : after (exec (.lmul9 0xAE) State.reset) State.lq = some 0xA9 := by decide +kernel

theorem test_lmul11 : after (exec (.lmul11 0xAE) State.reset) State.lq = some 0xEE := by decide +kernel

theorem test_lmul13 : after (exec (.lmul13 0xAE) State.reset) State.lq = some 0x27 := by decide +kernel

theorem test_lmul14 : after (exec (.lmul14 0xAE) State.reset) State.lq = some 0xCE := by decide +kernel

theorem test_lrcon : after (exec (.lrcon 8) State.reset) State.lq = some 0x1B := by decide +kernel

/-- R91, R92: the examples of `xtime` and `gmul`. -/
theorem test_field_examples :
    xtime 0x57 = 0xAE ∧ xtime 0x80 = 0x1B ∧ xtime 0xFF = 0xE5 ∧ gmul 0x57 0x83 = 0xC1 ∧ gmul 0x57 0x13 = 0xFE ∧
    gmul 0x53 0xCA = 1 := by decide +kernel

/-! ### Key schedule (V-KS1, V-KS5, V-KS6) -/

theorem test_setkey_round1 : after (exec (.setkey 16) (keyed ramp)) (fun t => (t.w.k1, t.kcfg, t.err)) =
    some (blk 0xAB9BAA98182C192F625A632280C387C2, true, 0x00) := by decide +kernel

theorem test_setkey_round10 : (expand key2).k10 = blk 0xD13BE06FCF609EF54FB42E04624B8193 := by decide +kernel

theorem test_setkey_short : after (exec (.setkey 15) State.reset) (fun t => (t.w, t.kcfg, t.err)) =
    some (Schedule.zero, false, 0x01) := by decide +kernel

/-! ### Round primitives (V-P1 to V-P8) -/

theorem test_subb : after (exec .subb (fresh ramp)) (fun t => (t.st, t.err)) =
    some (blk 0x637C777BF26B6FC53001672BFED7AB76, 0x00) := by decide +kernel

theorem test_shrow : after (exec .shrow (fresh ramp)) State.st = some (blk 0x00010203050607040A0B08090F0C0D0E) := by decide +kernel

theorem test_mixc : after (exec .mixc (fresh ramp)) State.st = some (blk 0x02070005060304010A0F080D0E0B0C09) := by decide +kernel

theorem test_isubb : after (exec .isubb (fresh ramp)) State.st = some (blk 0x52096AD53036A538BF40A39E81F3D7FB) := by decide +kernel

theorem test_ishrow : after (exec .ishrow (fresh ramp)) State.st = some (blk 0x00010203070405060A0B08090D0E0F0C) := by decide +kernel

theorem test_imixc : after (exec .imixc (fresh ramp)) State.st = some (blk 0x0A0F080D0E0B0C090207000506030401) := by decide +kernel

theorem test_mixc_rows : after (exec .mixc (fresh (blk 0xD4BF5D3000000000FFFFFFFF80000000))) State.st =
    some (blk 0x046681E500000000FFFFFFFF1B80809B) := by decide +kernel

theorem test_ark : after (exec (.ark 1) (keyed ramp)) (fun t => (t.st, t.err)) =
    some (blk 0xAB9AA89B1C291F286A5369298CCE89CD, 0x00) := by decide +kernel

theorem test_ark_fresh : after (exec (.ark 5) (fresh ramp)) (fun t => (t.st, t.err)) = some (ramp, 0x02) := by decide +kernel

/-! ### Block commands (V-B1, V-Z1) -/

theorem test_encb : after (exec .encb (keyed pt1)) (fun t => (t.st, t.err)) =
    some (blk 0x4CF577CA9AB4747FDEA187DB7F2A7E08, 0x00) := by decide +kernel

theorem test_decb : after (exec .decb (keyed (blk 0x4CF577CA9AB4747FDEA187DB7F2A7E08))) State.st = some pt1 := by decide +kernel

theorem test_encb_fresh : after (exec .encb (fresh (blk 0))) (fun t => (t.st, t.err)) =
    some (blk 0x36363636363636363636363636363636, 0x02) := by decide +kernel

/-! ### Message commands (V-M1, V-M5 to V-M7, V-E4) -/

/-- V-M1: key K1 offered with the message on a fresh core. -/
theorem test_encm :
    after (exec (.encm 16) (withInput (fromMatrix pt1) { State.reset with kin := key1 })) (fun t => (t.output, t.olen, t.err, t.kcfg)) =
    some (bytesOf 32 0x4CF577CA9AB4747FDEA187DB7F2A7E0816C62A6D698DDEE14E392AA8F8ACEFB7, 32, 0x00, true) := by decide +kernel

theorem test_decm :
    after (exec (.decm 0) (withInput (bytesOf 32 0x4CF577CA9AB4747FDEA187DB7F2A7E0816C62A6D698DDEE14E392AA8F8ACEFB7) (keyed ramp)))
      (fun t => (t.output, t.olen, t.err)) = some (fromMatrix pt1, 16, 0x00) := by decide +kernel

/-- V-M6: bytes of value 16 or less are lost, high bytes are kept. -/
theorem test_decm_filter :
    after (exec (.decm 0) (withInput (bytesOf 16 0xC10DFF5D3A7A59EF4E392AA8F8ACEFB7) (keyed ramp))) State.output =
    some (bytesOf 4 0x80FF117F) := by decide +kernel

/-- V-E4: all three flags at once, on a fresh core with 20 input bytes. -/
theorem test_decm_flags :
    after (exec (.decm 7) (withInput (bytesOf 20 0) State.reset)) (fun t => (t.err, t.kcfg)) = some (0x07, false) := by decide +kernel

theorem test_clrerr : after (exec .clrerr { State.reset with err := 0x05 }) State.err = some 0x00 := by decide +kernel

/-! ### Steps and the host -/

/-- V-E5: an illegal word sets `ILLCMD` and is taken from the port. -/
theorem test_step_illegal : step (State.reset.withFetchWord 16 0x100B) = .next { State.reset with err := 0x08 } := by rfl

theorem test_step_idle : step State.reset = .next State.reset := by rfl

theorem test_step_runs : after (step ((keyed pt1).withFetchWord 16 0x0200)) State.st =
    some (blk 0x4CF577CA9AB4747FDEA187DB7F2A7E08) := by decide +kernel

theorem test_host_write_refused : step { State.reset with port := [.write (.w 0 0) 1] } = .refused .hostWriteReadOnly := by rfl

theorem test_host_write_st : after (step { State.reset with port := [.write (.st 1 2) 0xAB] }) (fun t => t.hostRead (.st 1 2)) =
    some (some 0xAB) := by decide +kernel

theorem test_reset_inv : State.reset.Inv := by decide

/-! ### Witnesses: for each obligation with hypotheses, a concrete case that meets them all together -/

/-- A fresh core with one host action pending. -/
def pending (a : HostAction) : State := { State.reset with port := [a] }

/-- A configured core with a message of 20 bytes, one flag set and rows to compare. -/
def busy : State := withInput (bytesOf 20 0x48454C4C4F20574F524C44313233343511FF1000) { keyed ramp with err := 0x01 }

theorem witness_DecodeEncodeRoundTrip : ∀ i ∈ [Instr.ark 10, .lrcon 9, .encm 255, .setkey 0, .encb], i.wellFormed = true := by decide

theorem witness_LegalWordIsItsEncoding : decode 0x100A = .legal (.ark 10) ∧ decode 0x2809 = .legal (.lrcon 9) := by decide

theorem witness_DecoderFollowsOpcodeTable : decode 0x0110 = .legal (.setkey 16) ∧ decode 0x100B = .illegal .roundKeyOutOfRange := by decide

theorem witness_StepRunsDecodedCommand :
    ((pending (.command 0x0200)).port = .command 0x0200 :: [] ∧ decode 0x0200 = .legal .encb) ∧
    decode (BitVec.ofNat 16 0x0200) = .legal .encb ∧ State.reset.port = [] := by decide

theorem witness_IllegalWordOnlyFlags :
    (pending (.command 0xFFFF)).port = .command 0xFFFF :: [] ∧ decode 0xFFFF = .illegal .unassignedOp := by decide

theorem witness_SboxIsAffineImageOfInverse : isInverseOf 0x53 0xCA ∧ isInverseOf 0x00 0x00 := by
  unfold isInverseOf
  decide +kernel

theorem witness_MulTablesAreLinearBijections : mul2 ∈ [mul2, mul3, mul9, mul11, mul13, mul14] ∧ mul14 ∈ [mul2, mul3, mul9, mul11, mul13, mul14] := by
  simp

theorem witness_RconLookupResults : 10 ≤ (10 : Byte).toNat ∧ 10 ≤ (255 : Byte).toNat := by decide

theorem witness_ArkAddsRoundKey : State.reset.w = Schedule.zero ∧ 11 ≤ (11 : Byte).toNat := by decide

theorem witness_ShiftStepResults : (fresh ramp).st = ⟨⟨0, 1, 2, 3⟩, ⟨4, 5, 6, 7⟩, ⟨8, 9, 10, 11⟩, ⟨12, 13, 14, 15⟩⟩ := by decide

theorem witness_MixStepResults :
    (fresh ramp).st.row 0 = ⟨0, 1, 2, 3⟩ ∧ (fresh (blk (2 ^ 128 - 1))).st.row 3 = ⟨0xFF, 0xFF, 0xFF, 0xFF⟩ := by decide

theorem witness_StepCommandsUndoEachOther :
    (Instr.imixc, Instr.mixc) ∈ [(Instr.subb, Instr.isubb), (.isubb, .subb), (.shrow, .ishrow), (.ishrow, .shrow), (.mixc, .imixc), (.imixc, .mixc)] := by
  decide

/-- Row 2 agrees and row 0 differs. -/
theorem witness_RowsNeverInfluenceEachOther :
    (fresh ramp).st.row 2 = (fresh (ramp.set 0 0 0xFF)).st.row 2 ∧ (fresh ramp).st ≠ (fresh (ramp.set 0 0 0xFF)).st ∧
    (∀ n : Fin 11, ((fresh ramp).w.key n).row 2 = ((fresh (ramp.set 0 0 0xFF)).w.key n).row 2) ∧ (10 : Byte).toNat ≤ 10 ∧
    Instr.ark 10 ∈ [Instr.ark 10, .subb, .shrow, .mixc, .isubb, .ishrow, .imixc, .encb, .decb] := by decide

theorem witness_ExpandClosedForms :
    ((expand key1).key (0 : Fin 10).castSucc).row 0 = ⟨0x30, 0x31, 0x32, 0x33⟩ ∧
    ((expand key1).key (0 : Fin 10).succ).row 0 = ⟨0xAB, 0x9B, 0xAA, 0x98⟩ ∧
    (expandT (rcon 0) ((expand key1).key (0 : Fin 10).castSucc)).get 0 = 0x9B := by decide +kernel

theorem witness_SetkeyAcceptsOrRejects : 16 ≤ (16 : Byte).toNat ∧ (15 : Byte).toNat < 16 ∧ (0 : Byte).toNat < 16 := by decide

theorem witness_KeyOptionRule :
    (0 : Byte).toNat = 0 ∧ 16 ≤ (16 : Byte).toNat ∧ (1 ≤ (1 : Byte).toNat ∧ (1 : Byte).toNat ≤ 15) ∧
    (1 ≤ (15 : Byte).toNat ∧ (15 : Byte).toNat ≤ 15) := by decide

theorem witness_OfferedKeyUsesFirstSixteenBytes :
    16 ≤ (fromMatrix key1).length ∧ 16 ≤ (fromMatrix key1 ++ fromMatrix key2).length := by decide

/-- The first and last pad position after a message of 16 bytes, and the only one after 15. -/
theorem witness_PadBytesAreOneToSixteen :
    (16 ≤ 16 ∧ 16 < 16 * encBlockCount 16) ∧ (16 ≤ 31 ∧ 31 < 16 * encBlockCount 16) ∧ (15 ≤ 15 ∧ 15 < 16 * encBlockCount 15) := by decide

theorem witness_EncmEncryptsPaddedMessage : 0 < State.reset.ilen / 16 + 1 ∧ 1 < busy.ilen / 16 + 1 := by decide

theorem holdsInput_withInput (bytes : List Byte) (s : State) : (withInput bytes s).holdsInput bytes := by
  refine ⟨rfl, fun a v h => ?_⟩
  simp [withInput, State.readIbuf, Memory.read_holding, List.getD, h]

/-- A second state holds the ciphertext of the first under the same schedule. -/
theorem witness_MessageRoundTrip :
    (withInput (fromMatrix pt1) (keyed ramp)).holdsInput (fromMatrix pt1) ∧
    ∃ t u : State, exec (.encm 0) (withInput (fromMatrix pt1) (keyed ramp)) = .next t ∧ u.w = t.w ∧ u.holdsInput t.output :=
  ⟨holdsInput_withInput _ _, _, withInput _ (keyed ramp), rfl, rfl, holdsInput_withInput _ _⟩

/-- Block 0 agrees; the lengths and the bytes after it differ. -/
theorem witness_BlocksAreIndependent :
    busy.w = (withInput (fromMatrix pt1) busy).w ∧ 16 * 0 + 16 ≤ busy.ilen ∧ 16 * 0 + 16 ≤ (withInput (fromMatrix pt1) busy).ilen ∧
    ∀ k : Fin 16, busy.readIbuf (16 * 0 + k.val) = (withInput (fromMatrix pt1) busy).readIbuf (16 * 0 + k.val) := by decide +kernel

/-- The other buffer differs in the first byte past the message (`ENCM`), or in the first byte of the partial last block (`DECM`). -/
theorem witness_BytesPastMessageNeverMatter :
    (∀ a, a < busy.ilen → (busy.ibuf.write 20 0xEE).read .ibuf a = busy.readIbuf a) ∧
    (∀ a, a < 16 * (busy.ilen / 16) → (busy.ibuf.write 16 0xEE).read .ibuf a = busy.readIbuf a) ∧
    (busy.ibuf.write 16 0xEE).read .ibuf 16 ≠ busy.readIbuf 16 := by
  have h20 : busy.ilen = 20 := rfl
  have hwf : busy.ibuf.wf = true := Memory.holding_wf _ _
  refine ⟨fun a ha => ?_, fun a ha => ?_, by decide +kernel⟩ <;> rw [Memory.read_write hwf, if_neg (by omega)] <;> rfl

theorem witness_FlagsSetExactlyByTheirConditions :
    (Instr.decm 15).wellFormed = true ∧ (∃ t, exec (.decm 15) State.reset = .next t) ∧
    Instr.clrerr.wellFormed = true ∧ ∃ t, exec .clrerr busy = .next t :=
  ⟨rfl, ⟨_, rfl⟩, rfl, _, rfl⟩

theorem witness_FlagsAreSticky :
    ∃ t, ({ busy with port := [.command 0x0200] } : State).port = .command 0x0200 :: [] ∧ HostAction.command 0x0200 ≠ .reset ∧
      HostAction.command 0x0200 ≠ .command 0x0600 ∧ HostAction.command 0x0200 ≠ .write .cmd 0x0600 ∧
      step { busy with port := [.command 0x0200] } = .next t ∧ errHas ({ busy with port := [.command 0x0200] } : State).err .invkey = true :=
  ⟨_, rfl, by decide, by decide, by decide, rfl, rfl⟩

theorem witness_ClrerrClearsAllFlags : (1 : Byte) ≠ 0 ∧ (255 : Byte) ≠ 0 := by decide

/-- Each clause's premise happens: `ST`, `W`, `ERR`, `LQ` and `OLEN` do change under some command. -/
theorem witness_EachRegisterHasOnlyItsWriters :
    (∃ t, exec .subb State.reset = .next t ∧ t.st ≠ State.reset.st) ∧
    (∃ t, exec (.setkey 16) State.reset = .next t ∧ t.w ≠ State.reset.w ∧ t.kcfg ≠ State.reset.kcfg) ∧
    (∃ t, (Instr.ark 10).wellFormed = true ∧ exec (.ark 10) State.reset = .next t ∧ t.err ≠ State.reset.err) ∧
    (∃ t, exec (.lsbox 0) State.reset = .next t ∧ t.lq ≠ State.reset.lq) ∧
    (∃ t, exec (.encm 0) State.reset = .next t ∧ t.olen ≠ State.reset.olen) :=
  ⟨⟨_, rfl, by decide +kernel⟩, ⟨_, rfl, by decide +kernel, by decide +kernel⟩, ⟨_, rfl, rfl, by decide +kernel⟩, ⟨_, rfl, by decide +kernel⟩,
    ⟨_, rfl, by decide +kernel⟩⟩

theorem witness_FrameOfLookupCommands :
    (9 : Byte).toNat ≤ 9 ∧
    Instr.lrcon 9 ∈ [Instr.lsbox 0, .lisbox 0, .lmul2 0, .lmul3 0, .lmul9 0, .lmul11 0, .lmul13 0, .lmul14 0, .lrcon 9] ∧
    ∃ t, exec (.lrcon 9) busy = .next t :=
  ⟨by decide, by decide, _, rfl⟩

theorem witness_FrameOfStepAndBlockCommands :
    (10 : Byte).toNat ≤ 10 ∧ Instr.ark 10 ∈ [Instr.ark 10, .subb, .shrow, .mixc, .isubb, .ishrow, .imixc, .encb, .decb] ∧
    (∃ t, exec (.ark 10) busy = .next t) ∧
    State.reset.kcfg = false ∧ Instr.encb ∈ [Instr.ark 10, .encb, .decb] ∧ ∃ t, exec .encb State.reset = .next t :=
  ⟨by decide, by decide, ⟨_, rfl⟩, rfl, by decide, _, rfl⟩

theorem witness_FrameOfSetkeyAndClrerr :
    Instr.setkey 15 ∈ [Instr.setkey 15, .clrerr] ∧ (∃ t, exec (.setkey 15) busy = .next t) ∧
    Instr.clrerr ∈ [Instr.setkey 15, .clrerr] ∧ ∃ t, exec .clrerr busy = .next t :=
  ⟨by decide, ⟨_, rfl⟩, by decide, _, rfl⟩

theorem witness_FrameOfMessageCommands :
    Instr.encm 15 ∈ [Instr.encm 15, .decm 15] ∧ (15 : Byte).toNat < 16 ∧ (∃ t, exec (.encm 15) busy = .next t) ∧
    Instr.decm 15 ∈ [Instr.encm 15, .decm 15] ∧ ∃ t, exec (.decm 15) busy = .next t :=
  ⟨by decide, by decide, ⟨_, rfl⟩, by decide, _, rfl⟩

theorem witness_LawfulHostActionsComplete :
    (∀ a ∈ [HostAction.command 0xFFFF, .reset, .read .err, .write .ilen 1000, .write (.ibuf 7) 255, .write .cmd 0xFFFF],
      (pending a).port = a :: [] ∧ a.lawful = true) ∧
    (∀ a ∈ [HostAction.read .cmd, .write .err 0, .write (.ibuf 7) 256, .write .cmd 0x10000],
      (pending a).port = a :: [] ∧ a.lawful = false) := by decide

theorem witness_HostWriteIsReadBack :
    ∀ cv ∈ [(Cell.ibuf 20, 255), (Cell.st 3 3, 0), (Cell.kin 15, 255), (Cell.ilen, 1000)],
      busy.ibuf.wf = true ∧ cv.1 ≠ .cmd ∧ cv.1.hostWritable = true ∧ cv.1.fits cv.2 = true ∧ Cell.err ≠ cv.1 := by decide +kernel

theorem witness_HostReadHasNoEffect : Cell.err ≠ .cmd ∧ Cell.w 43 3 ≠ .cmd := by decide

theorem witness_ResetLeavesSpecValues : ∃ t, step { busy with port := .reset :: [] } = .next t := ⟨_, rfl⟩

theorem witness_NeverConfiguredCoreUsesZeros : (fresh ramp).w = State.reset.w ∧ (fresh ramp).kcfg = false := by decide

/-- A configured state that meets the invariant, and the step it takes. -/
theorem witness_EveryStepKeepsInvariant :
    State.Inv { busy with port := [.command 0x0400] } ∧ ∃ t, step { busy with port := [.command 0x0400] } = .next t :=
  ⟨by decide +kernel, _, rfl⟩

end Sys2Proof.Tests
end

section
/-! What each group of commands writes (R40, last column). -/

namespace Sys2Proof.Machine

/-- The shapes of a command's effect with the commands that have them; a writer is one of those. -/
inductive CommandEffect (s : State) : Instr → State → Prop where
  /-- A lookup writes `LQ` (R99). -/
  | lookup {i : Instr} (x v : Byte)
      (hi : i ∈ [Instr.lsbox x, .lisbox x, .lmul2 x, .lmul3 x, .lmul9 x, .lmul11 x, .lmul13 x, .lmul14 x, .lrcon x]) :
      CommandEffect s i (s.lookedUp v)
  /-- A step command without a round key writes `ST` (R137 to R142). -/
  | transform {i : Instr} (m : Block) (hi : i ∈ [Instr.subb, .shrow, .mixc, .isubb, .ishrow, .imixc]) :
      CommandEffect s i (s.withSt m)
  /-- A step or block command that reads `W` writes `ST` and may flag `UNINIT` (R136, R161, R162). -/
  | keyed {i : Instr} (m : Block) (hi : i ∈ [Instr.encb, .decb] ∨ ∃ r, i = .ark r) : CommandEffect s i (s.flagUninit.withSt m)
  /-- An ill-formed term flags `ILLCMD` (log entry 11). -/
  | illegal {i : Instr} (hi : i.wellFormed = false) : CommandEffect s i s.illegalCommand
  | acceptKey (klen : Byte) (hk : 16 ≤ klen.toNat) : CommandEffect s (.setkey klen) s.acceptKey
  | rejectKey (klen : Byte) : CommandEffect s (.setkey klen) s.rejectKey
  | encryptMessage (klen : Byte) : CommandEffect s (.encm klen) (s.keyOption klen).flagUninit.encryptMessage
  | decryptMessage (klen : Byte) : CommandEffect s (.decm klen) (s.keyOption klen).flagUninit.flagMisalign.decryptMessage
  | clearErr : CommandEffect s .clrerr { s with err := 0x00 }

/-- A command has the effect of its group. -/
theorem exec_effect {i : Instr} {s t : State} (h : exec i s = .next t) : CommandEffect s i t := by
  cases i with
  | setkey klen =>
    obtain rfl := Host.Outcome.next.inj h
    split
    next hk => exact .acceptKey klen (of_decide_eq_true hk)
    next => exact .rejectKey klen
  | encb | decb =>
    obtain rfl := Host.Outcome.next.inj h
    exact .keyed _ (.inl (by simp))
  | encm klen =>
    obtain rfl := Host.Outcome.next.inj h
    exact .encryptMessage klen
  | decm klen =>
    obtain rfl := Host.Outcome.next.inj h
    exact .decryptMessage klen
  | clrerr =>
    obtain rfl := Host.Outcome.next.inj h
    exact .clearErr
  | ark r =>
    rcases Nat.lt_or_ge 10 r.toNat with hr | hr
    · simp only [exec, execArk, roundNumber?_none hr, Host.Outcome.next.injEq] at h
      exact h ▸ .illegal (by simpa [Instr.wellFormed] using hr)
    · simp only [exec, execArk, roundNumber?_eq hr, Host.Outcome.next.injEq] at h
      exact h ▸ .keyed _ (.inr ⟨r, rfl⟩)
  | subb | shrow | mixc | isubb | ishrow | imixc =>
    obtain rfl := Host.Outcome.next.inj h
    exact .transform _ (by simp)
  | lsbox x | lisbox x | lmul2 x | lmul3 x | lmul9 x | lmul11 x | lmul13 x | lmul14 x =>
    obtain rfl := Host.Outcome.next.inj h
    exact .lookup x _ (by simp)
  | lrcon n =>
    rcases Nat.lt_or_ge 9 n.toNat with hn | hn
    · simp only [exec, execLrcon, rconIndex?_none hn, Host.Outcome.next.injEq] at h
      exact h ▸ .illegal (by simpa [Instr.wellFormed] using hn)
    · simp only [exec, execLrcon, rconIndex?_eq hn, Host.Outcome.next.injEq] at h
      exact h ▸ .lookup n _ (by simp)

variable {i : Instr} {s t : State}

/-- No command writes what is the host's (R40). -/
theorem exec_keeps_hostData (h : exec i s = .next t) : s.sameHostData t := by
  cases exec_effect h with
  | lookup | transform | illegal | acceptKey | rejectKey | clearErr => exact ⟨rfl, rfl, fun _ => rfl, rfl⟩
  | keyed | encryptMessage | decryptMessage =>
    simp [State.sameHostData, State.readIbuf, State.encryptMessage, State.decryptMessage]

theorem exec_st_writers (h : exec i s = .next t) (hst : t.st ≠ s.st) :
    i ∈ [Instr.subb, .shrow, .mixc, .isubb, .ishrow, .imixc, .encb, .decb] ∨
      (∃ r, i = .ark r) ∨ ∃ klen, i = .encm klen ∨ i = .decm klen := by
  cases exec_effect h with
  | transform m hi => exact .inl (List.mem_append_left [Instr.encb, .decb] hi)
  | keyed m hi =>
    rcases hi with hi | hi
    · exact .inl (List.mem_append_right [Instr.subb, .shrow, .mixc, .isubb, .ishrow, .imixc] hi)
    · exact .inr (.inl hi)
  | encryptMessage klen => exact .inr (.inr ⟨klen, .inl rfl⟩)
  | decryptMessage klen => exact .inr (.inr ⟨klen, .inr rfl⟩)
  | lookup | illegal | acceptKey | rejectKey | clearErr => exact absurd rfl hst

/-- A key option changes the schedule or `KCFG` only by accepting a key (R121, R122, R127). -/
theorem State.keyOption_writes_key (s : State) (klen : Byte)
    (h : (s.keyOption klen).w ≠ s.w ∨ (s.keyOption klen).kcfg ≠ s.kcfg) :
    (s.keyOption klen).w = expand s.kin ∧ (s.keyOption klen).kcfg = true ∧ 16 ≤ klen.toNat := by
  rcases s.keyOption_cases klen with ⟨-, hk⟩ | ⟨hlen, hk⟩ | ⟨-, -, hk⟩
  · simp [hk] at h
  · rw [hk]
    exact ⟨rfl, rfl, hlen⟩
  · simp [hk] at h

theorem exec_key_writers (h : exec i s = .next t) (hkey : t.w ≠ s.w ∨ t.kcfg ≠ s.kcfg) :
    t.w = expand s.kin ∧ t.kcfg = true ∧
      ∃ klen : Byte, 16 ≤ klen.toNat ∧ (i = .setkey klen ∨ i = .encm klen ∨ i = .decm klen) := by
  cases exec_effect h with
  | acceptKey klen hk => exact ⟨rfl, rfl, klen, hk, .inl rfl⟩
  | encryptMessage klen =>
    simp only [State.encryptMessage, State.storeMessage_w, State.storeMessage_kcfg, State.flagUninit_w, State.flagUninit_kcfg] at hkey ⊢
    obtain ⟨hw, hkcfg, hk⟩ := s.keyOption_writes_key klen hkey
    exact ⟨hw, hkcfg, klen, hk, .inr (.inl rfl)⟩
  | decryptMessage klen =>
    simp only [State.decryptMessage, State.storeMessage_w, State.storeMessage_kcfg, State.flagMisalign_w, State.flagMisalign_kcfg,
      State.flagUninit_w, State.flagUninit_kcfg] at hkey ⊢
    obtain ⟨hw, hkcfg, hk⟩ := s.keyOption_writes_key klen hkey
    exact ⟨hw, hkcfg, klen, hk, .inr (.inr rfl)⟩
  | lookup | transform | keyed | illegal | rejectKey | clearErr => simp at hkey

theorem exec_err_writers (h : exec i s = .next t) (hwf : i.wellFormed = true) (herr : t.err ≠ s.err) :
    i ∈ [Instr.encb, .decb, .clrerr] ∨ (∃ r, i = .ark r) ∨ ∃ klen, i = .setkey klen ∨ i = .encm klen ∨ i = .decm klen := by
  cases exec_effect h with
  | keyed m hi =>
    rcases hi with hi | hi
    · exact .inl (List.mem_append_left [Instr.clrerr] hi)
    · exact .inr (.inl hi)
  | illegal hi => exact absurd hwf (by simp [hi])
  | rejectKey klen => exact .inr (.inr ⟨klen, .inl rfl⟩)
  | encryptMessage klen => exact .inr (.inr ⟨klen, .inr (.inl rfl)⟩)
  | decryptMessage klen => exact .inr (.inr ⟨klen, .inr (.inr rfl)⟩)
  | clearErr => exact .inl (by simp)
  | lookup | transform | acceptKey => exact absurd rfl herr

theorem exec_lq_writers (h : exec i s = .next t) (hlq : t.lq ≠ s.lq) :
    ∃ x, i ∈ [Instr.lsbox x, .lisbox x, .lmul2 x, .lmul3 x, .lmul9 x, .lmul11 x, .lmul13 x, .lmul14 x, .lrcon x] := by
  cases exec_effect h with
  | lookup x v hi => exact ⟨x, hi⟩
  | transform | keyed | illegal | acceptKey | rejectKey | encryptMessage | decryptMessage | clearErr =>
    simp [State.encryptMessage, State.decryptMessage] at hlq

theorem exec_output_writers (h : exec i s = .next t) (hout : t.olen ≠ s.olen ∨ ∃ a, t.readObuf a ≠ s.readObuf a) :
    ∃ klen, i = .encm klen ∨ i = .decm klen := by
  cases exec_effect h with
  | encryptMessage klen => exact ⟨klen, .inl rfl⟩
  | decryptMessage klen => exact ⟨klen, .inr rfl⟩
  | lookup | transform | keyed | illegal | acceptKey | rejectKey | clearErr => simp [State.readObuf] at hout

end Sys2Proof.Machine
end

section
/-! The obligation on the writers. -/

open Sys2Proof Sys2Proof.Machine

/-- Settles O45, register by register, each from the effect of the command's group. -/
theorem eachRegisterHasOnlyItsWriters : Obligations.EachRegisterHasOnlyItsWriters := by
  unfold Obligations.EachRegisterHasOnlyItsWriters
  intro i s t h
  exact ⟨exec_keeps_hostData h, exec_st_writers h, exec_key_writers h, exec_err_writers h, exec_lq_writers h, exec_output_writers h⟩

end

section
/-! The host side: what a step does with the next action, when an action completes, what a
write and a read of a location give. -/

namespace Sys2Proof.Machine

/-! ### A step, by what is pending at the port -/

theorem step_idle {s : State} (h : s.port = []) : step s = .next s := by
  simp only [step, h]

theorem step_pending {s : State} {a : HostAction} {rest : List HostAction} (h : s.port = a :: rest) :
    step s = State.takeAction { s with port := rest } a := by
  simp only [step, h]

theorem State.runWord_legal {s : State} {word : CmdWord} {i : Instr} (h : decode word = .legal i) : s.runWord word = exec i s := by
  simp only [State.runWord, h]

/-- All 16 bits of a table word are the word's (R53). -/
theorem tableWord_sixteen (n : Nat) : tableWord 16 n = BitVec.ofNat 16 n :=
  BitVec.eq_of_toNat_eq (by simp [tableWord])

/-- A word put at the front of the port is the next one run, and the port is then as it was. -/
theorem step_withFetchWord (s : State) (n : Nat) : step (s.withFetchWord 16 n) = s.runWord (BitVec.ofNat 16 n) := by
  rw [← tableWord_sixteen]
  rfl

/-! ### Which host actions complete -/

/-- Every word written to `CMD` completes (R78, R200). -/
theorem State.runWord_next (s : State) (word : CmdWord) : ∃ t, s.runWord word = .next t := by
  unfold State.runWord
  split
  · exact exec_next _ s
  · exact ⟨_, rfl⟩

theorem State.takeWrite_cmd {s : State} {v : Nat} (hv : Cell.fits v .cmd = true) :
    s.takeWrite .cmd v = s.runWord (BitVec.ofNat 16 v) := by
  simp [State.takeWrite, Cell.hostWritable, hv]

theorem State.takeWrite_data {s : State} {c : Cell} {v : Nat} (hc : c ≠ .cmd) (hw : c.hostWritable = true) (hv : c.fits v = true) :
    s.takeWrite c v = .next (s.hostWrite v c) := by
  simp [State.takeWrite, hc, hw, hv]

/-- A write that the host may make completes (R40). -/
theorem State.takeWrite_next {s : State} {c : Cell} {v : Nat} (hw : c.hostWritable = true) (hv : c.fits v = true) :
    ∃ t, s.takeWrite c v = .next t := by
  by_cases hc : c = .cmd
  · subst hc
    rw [State.takeWrite_cmd hv]
    exact s.runWord_next _
  · exact ⟨_, State.takeWrite_data hc hw hv⟩

/-- Any other write is refused (U13, U14; log entry 10). -/
theorem State.takeWrite_refused {s : State} {c : Cell} {v : Nat} (h : (c.hostWritable && c.fits v) = false) :
    ∃ r, s.takeWrite c v = .refused r := by
  cases hw : c.hostWritable with
  | false => exact ⟨.hostWriteReadOnly, by simp [State.takeWrite, hw]⟩
  | true =>
    have hv : c.fits v = false := by simpa [hw] using h
    exact ⟨.valueTooWide, by simp [State.takeWrite, hw, hv]⟩

/-- Every location but `CMD` holds a value (R30, R40). -/
theorem State.hostRead_isSome (s : State) {c : Cell} (h : c ≠ .cmd) : ∃ v, s.hostRead c = some v := by
  cases c with
  | cmd => exact absurd rfl h
  | _ => exact ⟨_, rfl⟩

theorem State.takeRead_next (s : State) {c : Cell} (h : c ≠ .cmd) : s.takeRead c = .next s := by
  obtain ⟨v, hv⟩ := s.hostRead_isSome h
  simp only [State.takeRead, hv]

theorem State.takeAction_next_of_lawful (s : State) {a : HostAction} (h : a.lawful = true) : ∃ t, s.takeAction a = .next t := by
  cases a with
  | command word => exact s.runWord_next word
  | write c v =>
    obtain ⟨hw, hv⟩ := Bool.and_eq_true_iff.1 h
    exact State.takeWrite_next hw hv
  | read c => exact ⟨s, s.takeRead_next (of_decide_eq_true h)⟩
  | reset => exact ⟨_, rfl⟩

theorem State.takeAction_refused_of_unlawful (s : State) {a : HostAction} (h : a.lawful = false) :
    ∃ r, s.takeAction a = .refused r := by
  cases a with
  | command word => cases h
  | write c v => exact State.takeWrite_refused h
  | read c =>
    obtain rfl : c = .cmd := by simpa [HostAction.lawful] using h
    exact ⟨_, rfl⟩
  | reset => cases h

/-- An action that completes is one the host may make. -/
theorem State.lawful_of_takeAction_next {s t : State} {a : HostAction} (h : s.takeAction a = .next t) : a.lawful = true := by
  by_contra hl
  obtain ⟨r, hr⟩ := s.takeAction_refused_of_unlawful (Bool.not_eq_true _ ▸ hl)
  cases hr.symm.trans h

/-! ### What a host write leaves unchanged, and what is read after it -/

@[simp] theorem State.hostWrite_w (s : State) (v : Nat) (c : Cell) : (s.hostWrite v c).w = s.w := by cases c <;> rfl
@[simp] theorem State.hostWrite_kcfg (s : State) (v : Nat) (c : Cell) : (s.hostWrite v c).kcfg = s.kcfg := by cases c <;> rfl
@[simp] theorem State.hostWrite_err (s : State) (v : Nat) (c : Cell) : (s.hostWrite v c).err = s.err := by cases c <;> rfl
@[simp] theorem State.hostWrite_olen (s : State) (v : Nat) (c : Cell) : (s.hostWrite v c).olen = s.olen := by cases c <;> rfl
@[simp] theorem State.hostWrite_obuf (s : State) (v : Nat) (c : Cell) : (s.hostWrite v c).obuf = s.obuf := by cases c <;> rfl
@[simp] theorem State.hostWrite_port (s : State) (v : Nat) (c : Cell) : (s.hostWrite v c).port = s.port := by cases c <;> rfl

/-- A host write keeps the canonical form of `IBUF`. -/
theorem State.hostWrite_ibuf_wf {s : State} (v : Nat) (c : Cell) (h : s.ibuf.wf = true) : (s.hostWrite v c).ibuf.wf = true := by
  cases c with
  | ibuf a => exact Memory.write_wf a _ h
  | _ => exact h

/-- Byte numbers name the cells one to one (R50), so a write by byte number reads back by byte number. -/
@[simp] theorem Block.byte_set (m : Block) (k n : Fin 16) (v : Byte) :
    (m.set (byteRow k) (byteColumn k) v).byte n = if n = k then v else m.byte n := by
  have hcell : (byteRow n = byteRow k ∧ byteColumn n = byteColumn k) ↔ n = k := by
    constructor
    · rintro ⟨hrow, hcolumn⟩
      rw [← byteNumber_row_column n, hrow, hcolumn, byteNumber_row_column]
    · rintro rfl
      exact ⟨rfl, rfl⟩
  simp [Block.byte, hcell]

/-- The pending actions are no location. -/
theorem State.hostRead_port (s : State) (rest : List HostAction) (d : Cell) :
    ({ s with port := rest } : State).hostRead d = s.hostRead d := by
  cases d <;> rfl

/-- A fitting number written to a data location is read back there. -/
theorem State.hostRead_hostWrite_same {s : State} {c : Cell} {v : Nat} (hbuf : s.ibuf.wf = true) (hc : c ≠ .cmd)
    (hw : c.hostWritable = true) (hv : c.fits v = true) : (s.hostWrite v c).hostRead c = some v := by
  cases c with
  | st i j =>
    have hlt : v < 256 := of_decide_eq_true hv
    simp [State.hostWrite, State.hostRead, Nat.mod_eq_of_lt hlt]
  | kin k =>
    have hlt : v < 256 := of_decide_eq_true hv
    simp [State.hostWrite, State.hostRead, Nat.mod_eq_of_lt hlt]
  | ibuf a =>
    have hlt : v < 256 := of_decide_eq_true hv
    simp [State.hostWrite, State.hostRead, State.readIbuf, Memory.read_write hbuf, Nat.mod_eq_of_lt hlt]
  | ilen => rfl
  | cmd => exact absurd rfl hc
  | _ => cases hw

/-- Every other location reads as before. -/
theorem State.hostRead_hostWrite_other {s : State} {c d : Cell} (v : Nat) (hbuf : s.ibuf.wf = true) (hd : d ≠ c) :
    (s.hostWrite v c).hostRead d = s.hostRead d := by
  cases c with
  | st i j =>
    cases d with
    | st i' j' =>
      have hcell : ¬ (i' = i ∧ j' = j) := by simpa using hd
      simp [State.hostWrite, State.hostRead, hcell]
    | _ => rfl
  | kin k =>
    cases d with
    | kin n =>
      have hcell : n ≠ k := by simpa using hd
      simp [State.hostWrite, State.hostRead, hcell]
    | _ => rfl
  | ilen =>
    cases d with
    | ilen => exact absurd rfl hd
    | _ => rfl
  | ibuf a =>
    cases d with
    | ibuf b =>
      have hcell : b ≠ a := by simpa using hd
      simp [State.hostWrite, State.hostRead, State.readIbuf, Memory.read_write hbuf, hcell]
    | _ => rfl
  | _ => rfl

/-! ### The never-configured schedule -/

/-- Every byte of the never-configured schedule is 0 (R22). -/
theorem Schedule.byte_zero (n : Fin 44) (j : Fin 4) : Schedule.zero.byte n j = 0x00 := by
  simp [Schedule.byte]

end Sys2Proof.Machine
end

section
/-! The obligations on steps, host actions and reset. -/

open Sys2Proof Sys2Proof.Machine

/-- Settles O6: a step takes the next action, and a legal word runs its command. -/
theorem stepRunsDecodedCommand : Obligations.StepRunsDecodedCommand := by
  unfold Obligations.StepRunsDecodedCommand
  refine ⟨fun s word i rest hport hword => ?_, fun s n i hword => ?_, fun s hport => step_idle hport⟩
  · rw [step_pending hport]
    exact State.runWord_legal hword
  · rw [step_withFetchWord]
    exact State.runWord_legal hword

/-- Settles O53: every location but `CMD` holds a value, and taking the read answers the state it was given. -/
theorem hostReadHasNoEffect : Obligations.HostReadHasNoEffect := by
  unfold Obligations.HostReadHasNoEffect
  intro s c rest hc
  exact ⟨State.takeRead_next { s with port := rest } hc, s.hostRead_isSome hc⟩

/-- Settles O51, by the kinds of host action. -/
theorem lawfulHostActionsComplete : Obligations.LawfulHostActionsComplete := by
  unfold Obligations.LawfulHostActionsComplete
  intro s a rest hport
  rw [step_pending hport]
  exact ⟨State.takeAction_next_of_lawful _, State.takeAction_refused_of_unlawful _⟩

/-- Settles O52: the step is the host write, which is read back where it was made and nowhere else. -/
theorem hostWriteIsReadBack : Obligations.HostWriteIsReadBack := by
  unfold Obligations.HostWriteIsReadBack
  intro s c v rest hbuf hc hw hv
  exact ⟨State.hostWrite { s with port := rest } v c, State.takeWrite_data hc hw hv, State.hostWrite_port _ v c,
    State.hostRead_hostWrite_same hbuf hc hw hv,
    fun d hd => (State.hostRead_hostWrite_other (s := { s with port := rest }) v hbuf hd).trans (s.hostRead_port rest d)⟩

/-- Settles O54: the reset state and the reset event hold the values of R225. -/
theorem resetLeavesSpecValues : Obligations.ResetLeavesSpecValues := by
  unfold Obligations.ResetLeavesSpecValues
  refine ⟨?_, fun s rest => ⟨_, rfl, rfl⟩⟩
  rintro t (rfl | ⟨s, rest, hstep⟩)
  · exact ⟨Schedule.byte_zero, rfl, rfl, rfl, rfl⟩
  · obtain rfl : State.resetEvent { s with port := rest } = t := Host.Outcome.next.inj hstep
    exact ⟨Schedule.byte_zero, rfl, rfl, rfl, rfl⟩

end

section
/-! The invariant of the core: each named update keeps it, hence each command, each host action and each step. -/

namespace Sys2Proof.Machine

/-! ### The updates that leave the schedule and the buffers alone -/

theorem errReserved_zero : errReserved 0x00 = 0 := rfl

/-- The invariant reads six fields: what leaves them as they are keeps it, and of `ERR` only the reserved field counts. -/
theorem State.Inv.of_same {s t : State} (h : s.Inv) (herr : errReserved t.err = errReserved s.err) (hw : t.w = s.w)
    (hkcfg : t.kcfg = s.kcfg) (hibuf : t.ibuf = s.ibuf) (hobuf : t.obuf = s.obuf) (holen : t.olen = s.olen) : t.Inv := by
  simpa only [State.Inv, State.scheduleConsistent, State.outputHeld, herr, hw, hkcfg, hibuf, hobuf, holen] using h

theorem State.Inv.withSt {s : State} (h : s.Inv) (m : Block) : (s.withSt m).Inv := h

theorem State.Inv.lookedUp {s : State} (h : s.Inv) (v : Byte) : (s.lookedUp v).Inv := h

theorem State.Inv.flag {s : State} (h : s.Inv) (f : ErrFlag) : (s.flag f).Inv :=
  h.of_same (errReserved_errSet s.err f) rfl rfl rfl rfl rfl

theorem State.Inv.flagWhen {s : State} (h : s.Inv) (c : Bool) (f : ErrFlag) : (s.flagWhen c f).Inv := by
  cases c with
  | false => exact h
  | true => exact h.flag f

theorem State.Inv.flagUninit {s : State} (h : s.Inv) : s.flagUninit.Inv := h.flagWhen _ _

theorem State.Inv.flagMisalign {s : State} (h : s.Inv) : s.flagMisalign.Inv := h.flagWhen _ _

theorem State.Inv.clearErr {s : State} (h : s.Inv) : ({ s with err := 0x00 } : State).Inv := by
  obtain ⟨-, hrest⟩ := h
  exact ⟨errReserved_zero, hrest⟩

/-! ### The updates that write the schedule or a buffer -/

/-- An accepted key makes `W` the expansion of its own round key 0 (R32, R124). -/
theorem State.Inv.acceptKey {s : State} (h : s.Inv) : s.acceptKey.Inv := by
  obtain ⟨herr, -, hbuffers⟩ := h
  exact ⟨herr, .inr ⟨rfl, by simp⟩, hbuffers⟩

theorem State.Inv.rejectKey {s : State} (h : s.Inv) : s.rejectKey.Inv := h.flag .invkey

theorem State.Inv.keyOption {s : State} (h : s.Inv) (klen : Byte) : (s.keyOption klen).Inv := by
  rcases s.keyOption_cases klen with ⟨-, hk⟩ | ⟨-, hk⟩ | ⟨-, -, hk⟩
  · rwa [hk]
  · rw [hk]
    exact h.acceptKey
  · rw [hk]
    exact h.rejectKey

/-- A stored message is written from index 0 up to its length, which is `OLEN` (R29). -/
theorem State.Inv.storeMessage {s : State} (h : s.Inv) (out : List Byte) : (s.storeMessage out).Inv := by
  obtain ⟨herr, hschedule, hibuf, -, -⟩ := h
  exact ⟨herr, hschedule, hibuf, Memory.holding_wf out s.draws, Memory.holding_indices out s.draws⟩

theorem State.Inv.hostWrite {s : State} (h : s.Inv) (v : Nat) (c : Cell) : (s.hostWrite v c).Inv := by
  obtain ⟨herr, hschedule, hibuf, hobuf, houtput⟩ := h
  refine ⟨?_, ?_, State.hostWrite_ibuf_wf v c hibuf, ?_, ?_⟩
  · simpa using herr
  · simpa [State.scheduleConsistent] using hschedule
  · simpa using hobuf
  · simpa [State.outputHeld] using houtput

theorem State.reset_inv : State.reset.Inv := ⟨rfl, .inl ⟨rfl, rfl⟩, State.reset_ibuf_wf, State.reset_obuf_wf, rfl⟩

/-- A reset event gives what the invariant reads its reset values, whatever the state was. -/
theorem State.resetEvent_inv (s : State) : s.resetEvent.Inv := State.reset_inv

/-! ### Commands, host actions, steps -/

theorem exec_keeps_inv {i : Instr} {s t : State} (h : s.Inv) (hexec : exec i s = .next t) : t.Inv := by
  rcases exec_cases hexec with ⟨v, rfl⟩ | ⟨m, rfl⟩ | ⟨m, rfl⟩ | rfl | ⟨klen, -, rfl⟩ | ⟨klen, -, rfl⟩ | ⟨klen, -, rfl⟩ | ⟨-, rfl⟩
  · exact h.lookedUp v
  · exact h.withSt m
  · exact h.flagUninit.withSt m
  · exact h.flag .illcmd
  · split
    · exact h.acceptKey
    · exact h.rejectKey
  · exact (h.keyOption klen).flagUninit.storeMessage _
  · exact (h.keyOption klen).flagUninit.flagMisalign.storeMessage _
  · exact h.clearErr

theorem State.takeAction_keeps_inv {s t : State} {a : HostAction} (h : s.Inv) (hact : s.takeAction a = .next t) : t.Inv := by
  rcases State.takeAction_cases hact with ⟨_, i, -, hexec⟩ | rfl | ⟨c, v, -, -, -, rfl⟩ | rfl | rfl
  · exact exec_keeps_inv h hexec
  · exact h.flag .illcmd
  · exact h.hostWrite v c
  · exact h
  · exact s.resetEvent_inv

theorem step_keeps_inv {s t : State} (h : s.Inv) (hstep : step s = .next t) : t.Inv := by
  rcases step_cases hstep with ⟨-, rfl⟩ | ⟨a, rest, -, hact⟩
  · exact h
  · exact State.takeAction_keeps_inv (s := { s with port := rest }) h hact

end Sys2Proof.Machine
end

section
/-! The obligations on the invariant. -/

open Sys2Proof Sys2Proof.Machine

/-- Settles O56: the invariant's clauses at the values of the reset state. -/
theorem resetMeetsInvariant : Obligations.ResetMeetsInvariant := State.reset_inv

/-- Settles O57, by the shapes a step can have: each is made of updates that keep the invariant. -/
theorem everyStepKeepsInvariant : Obligations.EveryStepKeepsInvariant := by
  unfold Obligations.EveryStepKeepsInvariant
  exact fun _ _ h hstep => step_keeps_inv h hstep

end

section
/-! A legal word is the word of its command (R75): what each format gives, then the cases of the opcode map. -/

namespace Sys2Proof

/-! ### A word is known by its two fields -/

theorem encode_eq_of_fields {word : CmdWord} {i : Instr} (hop : (opField word).toNat = i.op.toNat) (harg : argField word = i.arg) :
    encode i = word := by
  have hopField : opField word = i.op := BitVec.eq_of_toNat_eq hop
  rw [encode, ← hopField, ← harg, fields_append]

/-! ### Each format, under the `OP` value of its command -/

/-- A format that accepts only some `ARG` values is a guard on the command. -/
theorem legal_of_guard {p : Prop} [Decidable p] {i j : Instr} {why : IllegalWord}
    (h : (if p then Decoded.legal i else .illegal why) = .legal j) : p ∧ Decoded.legal i = .legal j := by
  by_cases hp : p
  · exact ⟨hp, by rwa [if_pos hp] at h⟩
  · rw [if_neg hp] at h
    cases h

theorem encode_of_formatZ {word : CmdWord} {i j : Instr} (hop : (opField word).toNat = i.op.toNat) (harg : i.arg = 0)
    (h : formatZ (argField word) i = .legal j) : encode j = word := by
  obtain ⟨hzero, hj⟩ := legal_of_guard h
  obtain rfl := Decoded.legal.inj hj
  exact encode_eq_of_fields hop ((BitVec.eq_of_toNat_eq hzero).trans harg.symm)

/-- The four formats with an operand: it is the `ARG` field as it stands. -/
theorem encode_of_operand {word : CmdWord} {i : Byte → Instr} {j : Instr} (hop : (opField word).toNat = (i (argField word)).op.toNat)
    (harg : (i (argField word)).arg = argField word) (h : Decoded.legal (i (argField word)) = .legal j) : encode j = word := by
  obtain rfl := Decoded.legal.inj h
  exact encode_eq_of_fields hop harg.symm

/-! ### Every word -/

/-- No bit of a legal word is ignored: it is the word of the command it selects. -/
theorem encode_of_decode {word : CmdWord} {i : Instr} (h : decode word = .legal i) : encode i = word := by
  unfold decode at h
  split at h
  next hop => exact encode_of_operand (i := .setkey) hop rfl h
  next hop => exact encode_of_formatZ (i := .encb) hop rfl h
  next hop => exact encode_of_formatZ (i := .decb) hop rfl h
  next hop => exact encode_of_operand (i := .encm) hop rfl h
  next hop => exact encode_of_operand (i := .decm) hop rfl h
  next hop => exact encode_of_formatZ (i := .clrerr) hop rfl h
  next hop => exact encode_of_operand (i := .ark) hop rfl (legal_of_guard h).2
  next hop => exact encode_of_formatZ (i := .subb) hop rfl h
  next hop => exact encode_of_formatZ (i := .shrow) hop rfl h
  next hop => exact encode_of_formatZ (i := .mixc) hop rfl h
  next hop => exact encode_of_formatZ (i := .isubb) hop rfl h
  next hop => exact encode_of_formatZ (i := .ishrow) hop rfl h
  next hop => exact encode_of_formatZ (i := .imixc) hop rfl h
  next hop => exact encode_of_operand (i := .lsbox) hop rfl h
  next hop => exact encode_of_operand (i := .lisbox) hop rfl h
  next hop => exact encode_of_operand (i := .lmul2) hop rfl h
  next hop => exact encode_of_operand (i := .lmul3) hop rfl h
  next hop => exact encode_of_operand (i := .lmul9) hop rfl h
  next hop => exact encode_of_operand (i := .lmul11) hop rfl h
  next hop => exact encode_of_operand (i := .lmul13) hop rfl h
  next hop => exact encode_of_operand (i := .lmul14) hop rfl h
  next hop => exact encode_of_operand (i := .lrcon) hop rfl (legal_of_guard h).2
  next => cases h

end Sys2Proof
end

section
/-! The sticky flags (R25): each named update but `CLRERR` and the reset event keeps a set flag, hence each other command and host
action. -/

namespace Sys2Proof.Machine

/-! ### The updates -/

theorem State.flag_keeps_flag {s : State} {f : ErrFlag} (h : errHas s.err f = true) (g : ErrFlag) : errHas (s.flag g).err f = true := by
  simp [h]

theorem State.flagWhen_keeps_flag {s : State} {f : ErrFlag} (h : errHas s.err f = true) (c : Bool) (g : ErrFlag) :
    errHas (s.flagWhen c g).err f = true := by
  cases c with
  | false => exact h
  | true => exact State.flag_keeps_flag h g

theorem State.keyOption_keeps_flag {s : State} {f : ErrFlag} (h : errHas s.err f = true) (klen : Byte) :
    errHas (s.keyOption klen).err f = true := by
  rcases s.keyOption_cases klen with ⟨-, hk⟩ | ⟨-, hk⟩ | ⟨-, -, hk⟩
  · rwa [hk]
  · rwa [hk]
  · rw [hk]
    exact State.flag_keeps_flag h .invkey

/-! ### Commands and host actions -/

theorem exec_keeps_flag {i : Instr} {s t : State} {f : ErrFlag} (h : errHas s.err f = true) (hi : i ≠ .clrerr)
    (hexec : exec i s = .next t) : errHas t.err f = true := by
  rcases exec_cases hexec with ⟨v, rfl⟩ | ⟨m, rfl⟩ | ⟨m, rfl⟩ | rfl | ⟨klen, -, rfl⟩ | ⟨klen, -, rfl⟩ | ⟨klen, -, rfl⟩ | ⟨hclr, -⟩
  · exact h
  · exact h
  · exact State.flagWhen_keeps_flag h _ _
  · exact State.flag_keeps_flag h .illcmd
  · split
    · exact h
    · exact State.flag_keeps_flag h .invkey
  · exact State.flagWhen_keeps_flag (State.keyOption_keeps_flag h klen) _ _
  · exact State.flagWhen_keeps_flag (State.flagWhen_keeps_flag (State.keyOption_keeps_flag h klen) _ _) _ _
  · exact absurd hclr hi

/-- `CLRERR` has one word, `0x0600` (R74), so every other word keeps the flags. -/
theorem State.runWord_keeps_flag {s t : State} {word : CmdWord} {f : ErrFlag} (h : errHas s.err f = true) (hword : word ≠ 0x0600)
    (hrun : s.runWord word = .next t) : errHas t.err f = true := by
  rcases State.runWord_cases hrun with ⟨i, hi, hexec⟩ | ⟨_, -, rfl⟩
  · refine exec_keeps_flag h ?_ hexec
    rintro rfl
    exact hword (encode_of_decode hi).symm
  · exact State.flag_keeps_flag h .illcmd

theorem State.takeAction_keeps_flag {s t : State} {a : HostAction} {f : ErrFlag} (h : errHas s.err f = true) (hreset : a ≠ .reset)
    (hcommand : a ≠ .command 0x0600) (hwrite : a ≠ .write .cmd 0x0600) (hact : s.takeAction a = .next t) : errHas t.err f = true := by
  cases a with
  | command word => exact State.runWord_keeps_flag h (by simpa using hcommand) hact
  | write c v =>
    rcases State.takeWrite_cases hact with ⟨rfl, hrun⟩ | ⟨-, -, -, rfl⟩
    · have hlt : v < 65536 := of_decide_eq_true (State.lawful_of_takeAction_next hact)
      have hv : v ≠ 0x0600 := by simpa using hwrite
      refine State.runWord_keeps_flag h (fun hword => hv ?_) hrun
      simpa [Nat.mod_eq_of_lt hlt] using congrArg BitVec.toNat hword
    · simpa using h
  | read c =>
    obtain rfl := State.takeRead_cases hact
    exact h
  | reset => exact absurd rfl hreset

end Sys2Proof.Machine
end

section
/-! The obligation on the flags. -/

open Sys2Proof Sys2Proof.Machine

/-- Settles O41, by the kinds of host action: of the words only `0x0600` decodes to `CLRERR`. -/
theorem flagsAreSticky : Obligations.FlagsAreSticky := by
  unfold Obligations.FlagsAreSticky
  intro s t a rest f hport hreset hcommand hwrite hstep hflag
  rw [step_pending hport] at hstep
  exact State.takeAction_keeps_flag (s := { s with port := rest }) hflag hreset hcommand hwrite hstep

end

section
/-! Noninterference (R24, R203): a command run with other values of `KCFG` and `ERR` leaves everything else as it would have. -/

namespace Sys2Proof.Machine

/-- The state with other values of `KCFG` and `ERR`. -/
def State.withFlags (s : State) (kcfg : Bool) (err : Byte) : State := { s with kcfg := kcfg, err := err }

/-! ### The updates: each gives the same state up to `KCFG` and `ERR` -/

/-- Whether or not the condition differs too, only `ERR` can. -/
theorem State.flagWhen_withFlags (s : State) (c : Bool) (e : Byte) (b b' : Bool) (f : ErrFlag) :
    ∃ e', (s.withFlags c e).flagWhen b' f = (s.flagWhen b f).withFlags c e' := by
  refine ⟨if b' then errSet e f else e, ?_⟩
  cases b <;> cases b' <;> rfl

theorem State.flagUninit_withFlags (s : State) (c : Bool) (e : Byte) :
    ∃ e', (s.withFlags c e).flagUninit = s.flagUninit.withFlags c e' :=
  s.flagWhen_withFlags c e _ _ _

theorem State.flagMisalign_withFlags (s : State) (c : Bool) (e : Byte) :
    ∃ e', (s.withFlags c e).flagMisalign = s.flagMisalign.withFlags c e' :=
  s.flagWhen_withFlags c e _ _ _

/-- The effect shared by the step and block commands that read `W`. -/
theorem State.flagUninit_withSt_withFlags (s : State) (c : Bool) (e : Byte) (m : Block) :
    ∃ e', (s.withFlags c e).flagUninit.withSt m = (s.flagUninit.withSt m).withFlags c e' := by
  obtain ⟨e', hflag⟩ := s.flagUninit_withFlags c e
  exact ⟨e', congrArg (State.withSt · m) hflag⟩

/-- A valid key sets `KCFG` whatever it was (R121, R127). -/
theorem State.keyOption_withFlags (s : State) (klen : Byte) (c : Bool) (e : Byte) :
    ∃ e', (s.withFlags c e).keyOption klen = (s.keyOption klen).withFlags (keyValid klen || c) e' := by
  rcases s.keyOption_cases klen with ⟨h0, hk⟩ | ⟨hlen, hk⟩ | ⟨h0, hshort, hk⟩
  · have hv : keyValid klen = false := by simp [keyValid, h0]
    rw [hk, hv, State.keyOption_absent _ h0]
    exact ⟨e, rfl⟩
  · have hv : keyValid klen = true := decide_eq_true hlen
    rw [hk, hv, State.keyOption_valid _ hlen]
    exact ⟨e, rfl⟩
  · have hv : keyValid klen = false := decide_eq_false (by omega)
    rw [hk, hv, State.keyOption_short _ h0 hshort]
    exact ⟨errSet e .invkey, rfl⟩

theorem State.encryptMessage_withFlags (s : State) (c : Bool) (e : Byte) :
    (s.withFlags c e).encryptMessage = s.encryptMessage.withFlags c e := rfl

theorem State.decryptMessage_withFlags (s : State) (c : Bool) (e : Byte) :
    (s.withFlags c e).decryptMessage = s.decryptMessage.withFlags c e := rfl

/-! ### Commands -/

/-- A command from the state with other values of `KCFG` and `ERR` completes with the same state up to the two; `k` says whether it
accepts a key, which sets `KCFG`. -/
theorem exec_withFlags (i : Instr) (s : State) : ∃ t k, exec i s = .next t ∧
    ∀ c e, ∃ e', exec i (s.withFlags c e) = .next (t.withFlags (k || c) e') := by
  cases i with
  | setkey klen =>
    refine ⟨_, keyValid klen, rfl, fun c e => ?_⟩
    simp only [exec, execSetkey]
    cases keyValid klen <;> exact ⟨_, rfl⟩
  | encb | decb => exact ⟨_, false, rfl, fun c e => (s.flagUninit_withSt_withFlags c e _).imp fun _ => congrArg Host.Outcome.next⟩
  | ark r =>
    simp only [exec, execArk]
    cases roundNumber? r with
    | some k => exact ⟨_, false, rfl, fun c e => (s.flagUninit_withSt_withFlags c e _).imp fun _ => congrArg Host.Outcome.next⟩
    | none => exact ⟨_, false, rfl, fun _ e => ⟨errSet e .illcmd, rfl⟩⟩
  | lrcon n =>
    simp only [exec, execLrcon]
    cases rconIndex? n with
    | some k => exact ⟨_, false, rfl, fun _ e => ⟨e, rfl⟩⟩
    | none => exact ⟨_, false, rfl, fun _ e => ⟨errSet e .illcmd, rfl⟩⟩
  | encm klen =>
    refine ⟨_, keyValid klen, rfl, fun c e => ?_⟩
    obtain ⟨e1, hkey⟩ := s.keyOption_withFlags klen c e
    obtain ⟨e2, huninit⟩ := (s.keyOption klen).flagUninit_withFlags (keyValid klen || c) e1
    exact ⟨e2, by rw [exec, execEncm, hkey, huninit, State.encryptMessage_withFlags]⟩
  | decm klen =>
    refine ⟨_, keyValid klen, rfl, fun c e => ?_⟩
    obtain ⟨e1, hkey⟩ := s.keyOption_withFlags klen c e
    obtain ⟨e2, huninit⟩ := (s.keyOption klen).flagUninit_withFlags (keyValid klen || c) e1
    obtain ⟨e3, hmisalign⟩ := (s.keyOption klen).flagUninit.flagMisalign_withFlags (keyValid klen || c) e2
    exact ⟨e3, by rw [exec, execDecm, hkey, huninit, hmisalign, State.decryptMessage_withFlags]⟩
  | clrerr => exact ⟨_, false, rfl, fun _ _ => ⟨0x00, rfl⟩⟩
  | subb | shrow | mixc | isubb | ishrow | imixc => exact ⟨_, false, rfl, fun _ e => ⟨e, rfl⟩⟩
  | lsbox x | lisbox x | lmul2 x | lmul3 x | lmul9 x | lmul11 x | lmul13 x | lmul14 x => exact ⟨_, false, rfl, fun _ e => ⟨e, rfl⟩⟩

end Sys2Proof.Machine
end

section
/-! The obligations on noninterference. -/

open Sys2Proof Sys2Proof.Machine

/-- Settles O43: with `KCFG` the same in both runs, only `ERR` can differ after the command. -/
theorem errNeverChangesResults : Obligations.ErrNeverChangesResults := by
  unfold Obligations.ErrNeverChangesResults
  intro i s e
  obtain ⟨t, k, ht, hother⟩ := exec_withFlags i s
  obtain ⟨e₀, hself⟩ := hother s.kcfg s.err
  have hkcfg : t.kcfg = (k || s.kcfg) := congrArg State.kcfg (Host.Outcome.next.inj (ht.symm.trans hself))
  obtain ⟨e', he⟩ := hother s.kcfg e
  rw [← hkcfg] at he
  exact ⟨t, e', ht, he⟩

/-- Settles O44: the run with other flags leaves everything else the same. -/
theorem kcfgNeverChangesData : Obligations.KcfgNeverChangesData := by
  unfold Obligations.KcfgNeverChangesData
  intro i s c
  obtain ⟨t, k, ht, hother⟩ := exec_withFlags i s
  obtain ⟨e', he⟩ := hother c s.err
  exact ⟨t, k || c, e', ht, he⟩

end

section
/-! What a message command leaves in `OBUF`: the output byte by byte, block after block (R174, R176). -/

namespace Sys2Proof.Machine

/-! ### Blocks listed one after another -/

theorem length_blocks (f : Nat → Block) (n : Nat) : ((List.range n).flatMap fun b => fromMatrix (f b)).length = 16 * n := by
  simp [List.length_flatMap, Nat.mul_comm]

/-- Byte `16b + k` of a list of blocks is byte `k` of block `b`. -/
theorem blocks_getElem? (f : Nat → Block) {n b : Nat} (hb : b < n) (k : Fin 16) :
    ((List.range n).flatMap fun b => fromMatrix (f b))[16 * b + k.val]? = some ((f b).byte k) := by
  induction n with
  | zero => omega
  | succ n ih =>
    have hlen := length_blocks f n
    rw [List.range_succ, List.flatMap_append, List.flatMap_singleton]
    by_cases hlast : b = n
    · subst hlast
      rw [List.getElem?_append_right (by omega), hlen, Nat.add_sub_cancel_left, fromMatrix_getElem?]
    · rw [List.getElem?_append_left (by omega), ih (by omega)]

/-! ### The output of `ENCM` -/

@[simp] theorem length_encOutput (s : State) : (encOutput s).length = 16 * encBlockCount s.ilen := length_blocks _ _

theorem encOutput_getElem? (s : State) {b : Nat} (hb : b < encBlockCount s.ilen) (k : Fin 16) :
    (encOutput s)[16 * b + k.val]? = some ((enc (plainBlock s b) s.w).byte k) := blocks_getElem? _ hb k

theorem State.readObuf_encryptMessage (s : State) {b : Nat} (hb : b < encBlockCount s.ilen) (k : Fin 16) :
    s.encryptMessage.readObuf (16 * b + k.val) = (enc (plainBlock s b) s.w).byte k := by
  rw [State.readObuf, State.encryptMessage, State.storeMessage_obuf, Memory.read_holding, List.getD, encOutput_getElem? s hb,
    Option.getD_some]

/-- The `UNINIT` test leaves the message as it is. -/
@[simp] theorem plainBlock_flagUninit (s : State) (b : Nat) : plainBlock s.flagUninit b = plainBlock s b := by
  simp [plainBlock, paddedByte, State.readIbuf]

/-- A whole block of text is the block of `IBUF`, whatever the length is. -/
theorem plainBlock_eq_cipherBlock (s : State) {b : Nat} (h : 16 * b + 16 ≤ s.ilen) : plainBlock s b = cipherBlock s b := by
  have htext (k : Fin 16) : paddedByte s (16 * b + k.val) = s.readIbuf (16 * b + k.val) := if_pos (by omega)
  simp only [plainBlock, cipherBlock, htext]

/-- `ENCM 0` completes, and each whole block of text comes out as its own transform under `W`. -/
theorem exec_encm_zero_wholeBlock (s : State) : ∃ t, exec (.encm 0) s = .next t ∧ ∀ b, 16 * b + 16 ≤ s.ilen →
    ∀ k : Fin 16, t.readObuf (16 * b + k.val) = (enc (cipherBlock s b) s.w).byte k := by
  refine ⟨s.flagUninit.encryptMessage, by rw [exec, execEncm, State.keyOption_absent s rfl], fun b hb k => ?_⟩
  have hcount : b < encBlockCount s.flagUninit.ilen := by
    rw [State.flagUninit_ilen, encBlockCount]
    omega
  rw [State.readObuf_encryptMessage _ hcount, plainBlock_flagUninit, State.flagUninit_w, plainBlock_eq_cipherBlock s hb]

end Sys2Proof.Machine
end

section
/-! The obligation on block independence. -/

open Sys2Proof Sys2Proof.Machine

/-- Settles O38: an output block is the transform of its own input block under `W`, and both are the same in the two states. -/
theorem blocksAreIndependent : Obligations.BlocksAreIndependent := by
  unfold Obligations.BlocksAreIndependent
  intro s u b hw hs hu hagree
  obtain ⟨t, ht, hout⟩ := exec_encm_zero_wholeBlock s
  obtain ⟨v, hv, hout'⟩ := exec_encm_zero_wholeBlock u
  have hblock : cipherBlock s b = cipherBlock u b := congrArg toMatrix (funext hagree)
  exact ⟨t, v, ht, hv, fun k => by rw [hout b hs k, hout' b hu k, hblock, hw]⟩

end

section
/-! The word of a command: it decodes to the command exactly if the command is well formed (R71, R75). -/

namespace Sys2Proof

theorem decode_encode_ark (r : Byte) : decode (encode (.ark r)) = formatR r .ark := by
  rw [decode, opField_encode, argField_encode]
  rfl

theorem decode_encode_lrcon (n : Byte) : decode (encode (.lrcon n)) = formatN n .lrcon := by
  rw [decode, opField_encode, argField_encode]
  rfl

/-- Only the formats R and N refuse an operand, and they refuse exactly the ill-formed ones. -/
theorem decode_encode_iff (i : Instr) : decode (encode i) = .legal i ↔ i.wellFormed = true := by
  cases i with
  | ark r =>
    rw [decode_encode_ark]
    exact ⟨fun h => decide_eq_true (legal_of_guard h).1, fun h => if_pos (of_decide_eq_true h)⟩
  | lrcon n =>
    rw [decode_encode_lrcon]
    exact ⟨fun h => decide_eq_true (legal_of_guard h).1, fun h => if_pos (of_decide_eq_true h)⟩
  | _ =>
    rw [decode, opField_encode, argField_encode]
    exact iff_of_true rfl rfl

theorem decode_encode {i : Instr} (h : i.wellFormed = true) : decode (encode i) = .legal i := (decode_encode_iff i).2 h

theorem wellFormed_of_decode {word : CmdWord} {i : Instr} (h : decode word = .legal i) : i.wellFormed = true :=
  (decode_encode_iff i).1 (by rw [encode_of_decode h, h])

end Sys2Proof
end

section
/-! The words that R76 lists are the illegal ones: what each format refuses, under the `OP` values that have it. -/

namespace Sys2Proof

/-- A guard on the command refuses exactly what fails it. -/
theorem illegal_guard_iff {p : Prop} [Decidable p] {i : Instr} {why : IllegalWord} :
    (∃ why', (if p then Decoded.legal i else .illegal why) = .illegal why') ↔ ¬ p := by
  by_cases hp : p <;> simp [hp]

theorem formatZ_illegal_iff (arg : Byte) (i : Instr) : (∃ why, formatZ arg i = .illegal why) ↔ ¬ arg.toNat = 0 :=
  illegal_guard_iff

theorem formatR_illegal_iff (arg : Byte) (i : Byte → Instr) : (∃ why, formatR arg i = .illegal why) ↔ ¬ arg.toNat ≤ 10 :=
  illegal_guard_iff

theorem formatN_illegal_iff (arg : Byte) (i : Byte → Instr) : (∃ why, formatN arg i = .illegal why) ↔ ¬ arg.toNat ≤ 9 :=
  illegal_guard_iff

end Sys2Proof
end

section
/-! A row of the opcode table (R74) selects the words with its `OP` and a legal `ARG`; a command's row is the only one with its `OP`. -/

namespace Sys2Proof

/-! ### The masks -/

/-- A word is known by its two fields (R70). -/
theorem word_eq_iff (v w : CmdWord) : v = w ↔ opField v = opField w ∧ argField v = argField w := by
  refine ⟨fun h => h ▸ ⟨rfl, rfl⟩, fun ⟨hop, harg⟩ => ?_⟩
  rw [← fields_append v, hop, harg, fields_append]

theorem opField_and (v w : CmdWord) : opField (v &&& w) = opField v &&& opField w := BitVec.extractLsb'_and

theorem argField_and (v w : CmdWord) : argField (v &&& w) = argField v &&& argField w := BitVec.extractLsb'_and

/-- The mask of a format (R74): format Z fixes all 16 bits, the others fix `OP`. -/
def Format.mask : Format → CmdWord
  | .Z => 0xFFFF
  | .K | .R | .X | .N => 0xFF00

theorem opcodeTable_masks : ∀ row ∈ opcodeTable, row.mask = row.format.mask ∧ argField row.matchBits = 0 := by decide

theorem opField_mask (f : Format) : opField f.mask = BitVec.allOnes 8 := by
  cases f <;> rfl

/-- No bit of a legal `ARG` passes the mask: the mask drops the field, or the field is 0. -/
theorem and_argField_mask {f : Format} {arg : Byte} (h : f.accepts arg = true) : arg &&& argField f.mask = 0 := by
  cases f with
  | Z =>
    obtain rfl : arg = 0 := BitVec.eq_of_toNat_eq (of_decide_eq_true h)
    rfl
  | K | R | X | N => exact BitVec.and_zero

/-! ### Selection -/

theorem OpRow.selects_eq {row : OpRow} (hrow : row ∈ opcodeTable) (w : CmdWord) :
    row.selects w = (row.format.accepts (argField w) && decide (opField row.matchBits = opField w)) := by
  obtain ⟨hmask, harg⟩ := opcodeTable_masks row hrow
  rw [OpRow.selects, Bool.and_comm]
  cases haccepts : row.format.accepts (argField w) with
  | false => rfl
  | true =>
    have hmatch : w &&& row.mask = row.matchBits ↔ opField row.matchBits = opField w := by
      rw [hmask, word_eq_iff, opField_and, argField_and, harg, opField_mask, BitVec.and_allOnes, and_argField_mask haccepts,
        and_iff_left rfl, eq_comm]
    rw [decide_eq_decide.2 hmatch]

theorem filter_selects (w : CmdWord) : opcodeTable.filter (fun row => row.selects w) =
    (opcodeTable.filter fun row => decide (opField row.matchBits = opField w)).filter fun row => row.format.accepts (argField w) := by
  rw [List.filter_filter]
  exact List.filter_congr fun row hrow => row.selects_eq hrow w

theorem tableRow (i : Instr) : Laws.TableRow.Statement i := by
  cases i with
  | ark r => exact Laws.TableRow.ark r
  | lrcon n => exact Laws.TableRow.lrcon n
  | _ => exact fun _ => rfl

/-- The word of a well-formed command selects the one row with its `OP`. -/
theorem filter_selects_encode {i : Instr} (h : i.wellFormed = true) :
    (opcodeTable.filter fun row => row.selects (encode i)).map OpRow.mnemonic = [i.mnemonic] := by
  obtain ⟨row, hrow, hpair⟩ := List.map_eq_singleton_iff.1 (tableRow i h)
  obtain ⟨hmnemonic, haccepts⟩ := Prod.mk.inj hpair
  have hop : (opcodeTable.filter fun row => decide (opField row.matchBits = i.op)) = [row] := hrow
  rw [filter_selects, opField_encode, argField_encode, hop]
  simp [haccepts, hmnemonic]

/-- The `OP` values of the table, and the formats that do not accept every `ARG` under theirs. -/
theorem opcodeTable_formats : ∀ row ∈ opcodeTable,
    let op := (opField row.matchBits).toNat
    ((0x01 ≤ op ∧ op ≤ 0x06) ∨ (0x10 ≤ op ∧ op ≤ 0x16) ∨ (0x20 ≤ op ∧ op ≤ 0x28)) ∧
    (op ∈ [0x02, 0x03, 0x06, 0x11, 0x12, 0x13, 0x14, 0x15, 0x16] → row.format = .Z) ∧
    (op = 0x10 → row.format = .R) ∧ (op = 0x28 → row.format = .N) := by decide

end Sys2Proof
end

section
/-! The obligations on the encoding. -/

open Sys2Proof Sys2Proof.Machine

/-- Settles O2, by the commands: an operand is refused only in the formats R and N, where well-formedness bounds it. -/
theorem decodeEncodeRoundTrip : Obligations.DecodeEncodeRoundTrip := by
  unfold Obligations.DecodeEncodeRoundTrip
  exact fun _ => decode_encode

/-- Settles O3: the word is put together again from its two fields, and the operand is one its format accepts. -/
theorem legalWordIsItsEncoding : Obligations.LegalWordIsItsEncoding := by
  unfold Obligations.LegalWordIsItsEncoding
  exact fun _ _ h => ⟨wellFormed_of_decode h, encode_of_decode h⟩

/-- Settles O4, by the cases of the opcode map, which are those of the groups (a) to (d) and the `OP` values that accept every `ARG`. -/
theorem illegalWordsAreExactlyListed : Obligations.IllegalWordsAreExactlyListed := by
  unfold Obligations.IllegalWordsAreExactlyListed
  intro word
  have hop := opField_toNat word
  have harg := argField_toNat word
  simp only [List.mem_cons, List.not_mem_nil, or_false]
  unfold decode
  split
  case h_23 => -- (a)
    simp only [imp_false] at *
    exact iff_of_true ⟨_, rfl⟩ (.inl (by omega))
  case h_2 | h_3 | h_6 | h_8 | h_9 | h_10 | h_11 | h_12 | h_13 => -- (b)
    rw [formatZ_illegal_iff]
    omega
  case h_7 => -- (c)
    rw [formatR_illegal_iff]
    omega
  case h_22 => -- (d)
    rw [formatN_illegal_iff]
    omega
  all_goals exact iff_of_false (by rintro ⟨_, ⟨⟩⟩) (by omega) -- formats K and X

/-- An illegal word selects no row: under its `OP` there is none, or the row's format refuses its `ARG` (R76). -/
theorem not_selects_of_illegal {word : CmdWord} {why : IllegalWord} (h : decode word = .illegal why) {row : OpRow}
    (hrow : row ∈ opcodeTable) : ¬ row.selects word = true := by
  intro hselects
  rw [row.selects_eq hrow, Bool.and_eq_true, decide_eq_true_eq] at hselects
  obtain ⟨haccepts, hop⟩ := hselects
  obtain ⟨hassigned, hZ, hR, hN⟩ := opcodeTable_formats row hrow
  rw [hop, opField_toNat] at hassigned hZ hR hN
  have harg := argField_toNat word
  rcases (illegalWordsAreExactlyListed word).1 ⟨why, h⟩ with ha | ⟨hb, hnonzero⟩ | hc | hd
  · omega
  · rw [hZ hb] at haccepts
    exact hnonzero (harg ▸ of_decide_eq_true haccepts)
  · rw [hR (by omega)] at haccepts
    have hle : (argField word).toNat ≤ 10 := of_decide_eq_true haccepts
    omega
  · rw [hN (by omega)] at haccepts
    have hle : (argField word).toNat ≤ 9 := of_decide_eq_true haccepts
    omega

/-- Settles O5: a legal word is the word of its command, which has one row; an illegal word selects none. -/
theorem decoderFollowsOpcodeTable : Obligations.DecoderFollowsOpcodeTable := by
  unfold Obligations.DecoderFollowsOpcodeTable
  refine fun word => ⟨fun i h => ?_, fun why h => ?_⟩
  · rw [← encode_of_decode h]
    exact filter_selects_encode (wellFormed_of_decode h)
  · exact List.filter_eq_nil_iff.2 fun row hrow => not_selects_of_illegal h hrow

/-- Settles O1: the seven legal words are those of their commands. -/
theorem handWrittenWordsDecode : Obligations.HandWrittenWordsDecode := by
  unfold Obligations.HandWrittenWordsDecode
  decide

end

section
/-! Runs over command words and over the writes of a key (R56, R73): each step takes the next action. -/

namespace Sys2Proof.Machine

/-! ### One step of a run -/

theorem State.runWord_illegal {s : State} {word : CmdWord} {why : IllegalWord} (h : decode word = .illegal why) :
    s.runWord word = .next s.illegalCommand := by
  simp only [State.runWord, h]

/-- Issuing a well-formed command runs it (R80). -/
theorem step_command (s : State) {i : Instr} (h : i.wellFormed = true) (rest : List HostAction) :
    step { s with port := .command (encode i) :: rest } = exec i { s with port := rest } :=
  State.runWord_legal (decode_encode h)

theorem runSteps_succ {s t : State} (h : step s = .next t) (n : Nat) : runSteps (n + 1) s = runSteps n t := by
  have hcore : core.step s = .next t := h
  simp only [runSteps, Host.Core.run, hcore]
  rfl

/-- The `klen` of a key of any length (R73). -/
theorem klenOf_toNat (length : Nat) : (klenOf length).toNat = min length 255 := by
  rw [klenOf, BitVec.toNat_ofNat]
  omega

/-! ### Offering a key -/

/-- A key accepted at `SETKEY` (R120, R121). -/
theorem exec_setkey_valid (s : State) {klen : Byte} (h : 16 ≤ klen.toNat) : exec (.setkey klen) s = .next s.acceptKey := by
  simp [exec, execSetkey, keyValid, h]

theorem step_writeKin (s : State) (a : Nat) (v : Byte) (rest : List HostAction) :
    step { s with port := .write (kinCell a) v.toNat :: rest } =
      .next { s with kin := s.kin.set (byteRow (Fin.ofNat 16 a)) (byteColumn (Fin.ofNat 16 a)) v, port := rest } := by
  have htake := State.takeWrite_data (s := { s with port := rest }) (c := kinCell a) (v := v.toNat) nofun rfl (decide_eq_true v.isLt)
  refine htake.trans ?_
  rw [kinCell, State.hostWrite, BitVec.ofNat_toNat, BitVec.setWidth_eq]

/-- `M` with a byte list put in by byte number, the first at number `a`. -/
def Block.setBytes (m : Block) (a : Nat) : List Byte → Block
  | [] => m
  | v :: rest => (m.set (byteRow (Fin.ofNat 16 a)) (byteColumn (Fin.ofNat 16 a)) v).setBytes (a + 1) rest

theorem Block.byte_setBytes (m : Block) (a : Nat) (bytes : List Byte) (h : a + bytes.length ≤ 16) (k : Fin 16) :
    (m.setBytes a bytes).byte k = if a ≤ k.val then bytes.getD (k.val - a) (m.byte k) else m.byte k := by
  induction bytes generalizing m a with
  | nil => simp [Block.setBytes]
  | cons v rest ih =>
    rw [List.length_cons] at h
    have hnumber : k = Fin.ofNat 16 a ↔ k.val = a := by
      simp [Fin.ext_iff, Nat.mod_eq_of_lt (show a < 16 by omega)]
    rw [Block.setBytes, ih _ (a + 1) (by omega), Block.byte_set]
    simp only [hnumber]
    rcases Nat.lt_trichotomy k.val a with hlt | heq | hgt
    · simp [show ¬ a + 1 ≤ k.val by omega, show ¬ a ≤ k.val by omega, hlt.ne]
    · simp [heq]
    · obtain ⟨d, hd⟩ : ∃ d, k.val = a + (d + 1) := Nat.exists_eq_add_of_lt hgt
      simp [hd, show a + (d + 1) - (a + 1) = d by omega, show a + 1 ≤ a + (d + 1) by omega]

theorem runSteps_writesKin (n : Nat) (rest : List HostAction) (bytes : List Byte) (s : State) (a : Nat) (kin : Block) :
    runSteps (bytes.length + n) { s with kin := kin, port := writesFrom kinCell a bytes ++ rest } =
      runSteps n { s with kin := kin.setBytes a bytes, port := rest } := by
  induction bytes generalizing a kin with
  | nil =>
    rw [List.length_nil, Nat.zero_add]
    rfl
  | cons v bytes ih =>
    rw [List.length_cons, Nat.add_right_comm]
    exact (runSteps_succ (step_writeKin { s with kin := kin } a v _) _).trans (ih (a + 1) _)

/-- The 16 writes of a key (R73) leave its first 16 bytes in `KIN`, whatever was there. -/
theorem Block.setBytes_key (m : Block) {key : List Byte} (h : 16 ≤ key.length) :
    m.setBytes 0 (key.take 16) = toMatrix fun k => key.getD k.val 0 := by
  rw [← toMatrix_of_byte (m.setBytes 0 (key.take 16))]
  congr 1
  funext k
  rw [Block.byte_setBytes _ _ _ (by simp)]
  simp [List.getD, show k.val < key.length by omega]

/-- Offering a key of 16 bytes or more takes 17 steps, which accept its first 16 bytes (R73, R121). -/
theorem runSteps_offerKey (s : State) (rest : List HostAction) {key : List Byte} (h : 16 ≤ key.length) :
    runSteps 17 { s with port := offerKey key ++ rest } =
      .next (State.acceptKey { s with kin := toMatrix fun k => key.getD k.val 0, port := rest }) := by
  have hlength : (key.take 16).length = 16 := by simp [h]
  have hklen : 16 ≤ (klenOf key.length).toNat := by
    rw [klenOf_toNat]
    omega
  have hwrites := runSteps_writesKin 1 (.command (encode (.setkey (klenOf key.length))) :: rest) (key.take 16) s 0 s.kin
  rw [hlength, s.kin.setBytes_key h] at hwrites
  have hsetkey := step_command { s with kin := toMatrix fun k => key.getD k.val 0 } (i := .setkey (klenOf key.length)) rfl rest
  rw [offerKey, keyDirective, List.append_assoc]
  exact hwrites.trans (runSteps_succ (hsetkey.trans (exec_setkey_valid _ hklen)) 0)

end Sys2Proof.Machine
end

section
/-! The block commands as runs of step commands (R81, R163). -/

namespace Sys2Proof.Machine

theorem State.flagUninit_eq (s : State) : s.flagUninit = { s with err := if s.kcfg then s.err else errSet s.err .uninit } := by
  obtain ⟨_, _, _, kcfg, _⟩ := s
  cases kcfg <;> rfl

/-- `s` between two step commands of a block transform that has begun by reading `W`: `m` is in `ST`, and `UNINIT` is flagged if no key
is configured. -/
def State.midTransform (s : State) (m : Block) (port : List HostAction) : State :=
  { s with st := m, err := if s.kcfg then s.err else errSet s.err .uninit, port := port }

/-- A command that reads `W` leaves such a state. -/
theorem State.midTransform_of_keyed (s : State) (m : Block) (port : List HostAction) :
    State.withSt (State.flagUninit { s with port := port }) m = s.midTransform m port := by
  rw [State.flagUninit_eq]
  rfl

/-- In such a state another one flags nothing new. -/
theorem State.midTransform_keyed (s : State) (m m' : Block) (port : List HostAction) :
    (s.midTransform m port).flagUninit.withSt m' = s.midTransform m' port := by
  rw [State.flagUninit_eq]
  cases h : s.kcfg <;> simp [State.midTransform, State.withSt, h]

/-- What a step command makes of `ST` (R136 to R142); of no other command. -/
def stepTransform? (w : Schedule) (m : Block) : Instr → Option Block
  | .ark r => (roundNumber? r).map fun k => addRoundKey w k m
  | .subb => some (subBytes m)
  | .shrow => some (shiftRows m)
  | .mixc => some (mix m)
  | .isubb => some (invSubBytes m)
  | .ishrow => some (invShiftRows m)
  | .imixc => some (invMix m)
  | _ => none

/-- The 40 step commands of R163, and the transform they make together (R161, R162). -/
theorem encbSteps_transform (w : Schedule) (m : Block) : encbSteps.foldlM (stepTransform? w) m = some (enc m w) := rfl

theorem decbSteps_transform (w : Schedule) (m : Block) : decbSteps.foldlM (stepTransform? w) m = some (dec m w) := rfl

theorem wellFormed_ark {r : Byte} {k : Fin 11} (h : roundNumber? r = some k) : (Instr.ark r).wellFormed = true := by
  rw [roundNumber?, Option.dite_none_right_eq_some] at h
  obtain ⟨hlt, -⟩ := h
  exact decide_eq_true (Nat.le_of_lt_succ hlt)

theorem exec_ark {r : Byte} {k : Fin 11} (h : roundNumber? r = some k) (s : State) :
    exec (.ark r) s = .next (s.flagUninit.withSt (addRoundKey s.w k s.st)) := by
  simp only [exec, execArk, h]

/-- A command that transforms `ST` is well formed and completes. -/
theorem exec_stepTransform {s : State} {i : Instr} {m m' : Block} (h : stepTransform? s.w m i = some m') (port : List HostAction) :
    i.wellFormed = true ∧ exec i (s.midTransform m port) = .next (s.midTransform m' port) := by
  cases i with
  | ark r =>
    obtain ⟨k, hk, rfl⟩ := Option.map_eq_some_iff.1 h
    refine ⟨wellFormed_ark hk, ?_⟩
    rw [exec_ark hk]
    exact congrArg Host.Outcome.next (s.midTransform_keyed m _ port)
  | subb | shrow | mixc | isubb | ishrow | imixc =>
    obtain rfl := Option.some.inj h
    exact ⟨rfl, rfl⟩
  | _ => cases h

theorem runSteps_stepTransforms (s : State) (rest : List HostAction) {is : List Instr} {m m' : Block}
    (h : is.foldlM (stepTransform? s.w) m = some m') :
    runSteps is.length (s.midTransform m (commandsOf is ++ rest)) = .next (s.midTransform m' rest) := by
  induction is generalizing m with
  | nil =>
    obtain rfl := Option.some.inj h
    rfl
  | cons i is ih =>
    rw [List.foldlM_cons] at h
    obtain ⟨m₁, hfirst, hrest⟩ := Option.bind_eq_some_iff.1 h
    obtain ⟨hwf, hexec⟩ := exec_stepTransform hfirst (commandsOf is ++ rest)
    exact (runSteps_succ ((step_command (s.midTransform m []) hwf _).trans hexec) _).trans (ih hrest)

/-- A run of step commands that begins with a key addition. -/
theorem runSteps_ark_stepTransforms (s : State) (rest : List HostAction) {r : Byte} {is : List Instr} {m : Block}
    (h : (.ark r :: is).foldlM (stepTransform? s.w) s.st = some m) :
    runSteps (is.length + 1) { s with port := commandsOf (.ark r :: is) ++ rest } = .next (s.midTransform m rest) := by
  rw [List.foldlM_cons] at h
  obtain ⟨m₁, hfirst, hrest⟩ := Option.bind_eq_some_iff.1 h
  obtain ⟨k, hk, rfl⟩ := Option.map_eq_some_iff.1 hfirst
  refine (runSteps_succ ?_ _).trans (runSteps_stepTransforms s rest hrest)
  refine (step_command s (wellFormed_ark hk) _).trans ?_
  rw [exec_ark hk]
  exact congrArg Host.Outcome.next (s.midTransform_of_keyed _ _)

end Sys2Proof.Machine
end

section
/-! The obligations on illegal words, key lengths, offered keys and block commands. -/

open Sys2Proof Sys2Proof.Machine

/-- Settles O7: the step takes the word, and its whole effect is the flag. -/
theorem illegalWordOnlyFlags : Obligations.IllegalWordOnlyFlags := by
  unfold Obligations.IllegalWordOnlyFlags
  intro s word why rest hport hword
  rw [step_pending hport]
  exact State.runWord_illegal hword

/-- Settles O8: both thresholds lie below the saturation at 255. -/
theorem klenTellsLengthUpToSixteen : Obligations.KlenTellsLengthUpToSixteen := by
  unfold Obligations.KlenTellsLengthUpToSixteen
  intro length
  refine ⟨klenOf_toNat length, ?_, ?_⟩
  · rw [keyValid, decide_eq_true_iff, klenOf_toNat]
    omega
  · rw [keyAbsent, decide_eq_true_iff, klenOf_toNat]
    omega

/-- Settles O29: the 16 writes put the first 16 bytes into `KIN`, and the saturated length makes `SETKEY` accept them. -/
theorem offeredKeyUsesFirstSixteenBytes : Obligations.OfferedKeyUsesFirstSixteenBytes := by
  unfold Obligations.OfferedKeyUsesFirstSixteenBytes
  exact fun s key rest h => ⟨_, runSteps_offerKey s rest h, rfl, rfl⟩

/-- Settles O32: the step commands transform `ST` one after another as the block command does at once, and `UNINIT`, flagged by the
first key addition, is not changed by the later ones. -/
theorem blockCommandsEqualStepCommands : Obligations.BlockCommandsEqualStepCommands := by
  unfold Obligations.BlockCommandsEqualStepCommands
  intro s rest
  refine ⟨⟨_, runSteps_ark_stepTransforms s rest (encbSteps_transform s.w s.st), ?_⟩,
    ⟨_, runSteps_ark_stepTransforms s rest (decbSteps_transform s.w s.st), ?_⟩⟩
  · exact (step_command s (i := .encb) rfl rest).trans (congrArg Host.Outcome.next (s.midTransform_of_keyed _ rest))
  · exact (step_command s (i := .decb) rfl rest).trans (congrArg Host.Outcome.next (s.midTransform_of_keyed _ rest))

end

section
/-! The listings of the tables (section 3 of `40_gf_tables.md`), read row by row. -/

namespace Sys2Proof.Machine

/-- Entry `c` of a row, the row written as one number. -/
def rowEntry (row : Nat) (c : Fin 16) : Byte := BitVec.ofNat 8 (row >>> (8 * (15 - c.val)))

/-- What holds of every index and entry of the 16 rows holds of the table. -/
theorem tableEntry_of_rows {rows : List Nat} {P : Byte → Byte → Prop}
    (h : ∀ r c : Fin 16, P (BitVec.ofNat 8 (16 * r.val + c.val)) (rowEntry (rows.getD r.val 0) c)) (x : Byte) :
    P x (tableEntry rows x) := by
  have hx := h ⟨x.toNat / 16, by omega⟩ ⟨x.toNat % 16, by omega⟩
  rwa [Nat.div_add_mod, BitVec.ofNat_toNat, BitVec.setWidth_eq] at hx

/-- `SBOX` as a permutation of the bytes, with `INV_SBOX` as its inverse (R95). -/
def sboxPerm : Equiv.Perm Byte where
  toFun := sbox
  invFun := invSbox
  left_inv := tableEntry_of_rows (P := fun x v => invSbox v = x) (by decide +kernel)
  right_inv := tableEntry_of_rows (P := fun x v => sbox v = x) (by decide +kernel)

theorem sbox_invSbox_inverse : inverseTables sbox invSbox := fun x => ⟨sboxPerm.left_inv x, sboxPerm.right_inv x⟩

theorem bijective_sbox : Function.Bijective sbox := sboxPerm.bijective

theorem bijective_invSbox : Function.Bijective invSbox := sboxPerm.symm.bijective

end Sys2Proof.Machine
end

section
/-! The field product (R91, R92): both operands act bit by bit, so the laws hold of all bytes when they hold of the eight powers of two. -/

namespace Sys2Proof.Machine

/-! ### Maps that are linear over exclusive-or (R98 (b)) -/

theorem linearTable_of_xor {f : Byte → Byte} (h : ∀ a b, f (a ^^^ b) = f a ^^^ f b) : linearTable f := by
  refine ⟨h, ?_⟩
  have hzero := h 0 0
  rw [BitVec.xor_self] at hzero
  exact hzero.trans BitVec.xor_self

theorem linearTable.comp {f g : Byte → Byte} (hf : linearTable f) (hg : linearTable g) : linearTable fun a => f (g a) :=
  linearTable_of_xor fun a b => by rw [hg.1, hf.1]

/-- A linear map is known by its values at the powers of two. -/
theorem linearTable.ext {f g : Byte → Byte} (hf : linearTable f) (hg : linearTable g)
    (h : ∀ i : Fin 8, f (BitVec.twoPow 8 i) = g (BitVec.twoPow 8 i)) (a : Byte) : f a = g a := by
  suffices hbelow : ∀ n ≤ 8, ∀ a : Byte, (∀ i, n ≤ i → a.getLsbD i = false) → f a = g a from
    hbelow 8 le_rfl a a.getLsbD_of_ge
  intro n
  induction n with
  | zero =>
    intro _ a ha
    obtain rfl : a = 0 := BitVec.eq_of_getLsbD_eq fun i _ => by simpa using ha i i.zero_le
    rw [hf.2, hg.2]
  | succ n ih =>
    intro hn a ha
    cases hbit : a.getLsbD n with
    | false =>
      refine ih (Nat.le_of_succ_le hn) a fun i hi => ?_
      rcases Nat.eq_or_lt_of_le hi with rfl | hlt
      · exact hbit
      · exact ha i hlt
    | true =>
      have hlower : f (a ^^^ BitVec.twoPow 8 n) = g (a ^^^ BitVec.twoPow 8 n) := by
        refine ih (Nat.le_of_succ_le hn) _ fun i hi => ?_
        rw [BitVec.getLsbD_xor, BitVec.getLsbD_twoPow]
        rcases Nat.eq_or_lt_of_le hi with rfl | hlt
        · simpa [Nat.lt_of_succ_le hn] using hbit
        · simp [ha i hlt, hlt.ne]
      rwa [hf.1, hg.1, h ⟨n, hn⟩, BitVec.xor_left_inj] at hlower

/-! ### `xtime` and the product are linear -/

/-- What a bit selects from the exclusive-or of two bits. -/
theorem selected_bit_xor (c d : Bool) (v : Byte) : (if c ^^ d then v else 0) = (if c then v else 0) ^^^ (if d then v else 0) := by
  cases c <;> cases d <;> simp

theorem selected_xor (c : Bool) (v u : Byte) : (if c then v ^^^ u else 0) = (if c then v else 0) ^^^ (if c then u else 0) := by
  cases c <;> simp

theorem xtime_eq_msb (a : Byte) : xtime a = (a <<< 1) ^^^ (if a.msb then 0x1B else 0) := by
  rw [xtime, BitVec.msb_eq_decide]
  simp

theorem linear_xtime : linearTable xtime := linearTable_of_xor fun a b => by
  rw [xtime_eq_msb, xtime_eq_msb, xtime_eq_msb, BitVec.shiftLeft_xor_distrib, BitVec.msb_xor, selected_bit_xor]
  ac_rfl

/-- One round of R92's loop: the low bit of `b` selects whether `a` is added. -/
theorem gmulLoop_succ (n : Nat) (p a b : Byte) :
    gmulLoop (n + 1) p a b = gmulLoop n (p ^^^ if b.getLsbD 0 then a else 0) (xtime a) (b >>> 1) := by
  rw [gmulLoop]
  cases b.getLsbD 0 <;> simp

theorem gmulLoop_xor_left (n : Nat) (p q a c b : Byte) : gmulLoop n (p ^^^ q) (a ^^^ c) b = gmulLoop n p a b ^^^ gmulLoop n q c b := by
  induction n generalizing p q a c b with
  | zero => rfl
  | succ n ih =>
    rw [gmulLoop_succ, gmulLoop_succ, gmulLoop_succ, ← ih, linear_xtime.1, selected_xor]
    congr 1
    ac_rfl

theorem gmulLoop_xor_right (n : Nat) (p q a b d : Byte) : gmulLoop n (p ^^^ q) a (b ^^^ d) = gmulLoop n p a b ^^^ gmulLoop n q a d := by
  induction n generalizing p q a b d with
  | zero => rfl
  | succ n ih =>
    rw [gmulLoop_succ, gmulLoop_succ, gmulLoop_succ, ← ih, BitVec.ushiftRight_xor_distrib, BitVec.getLsbD_xor, selected_bit_xor]
    congr 1
    ac_rfl

theorem gmulLoop_xtime (n : Nat) (p a b : Byte) : gmulLoop n (xtime p) (xtime a) b = xtime (gmulLoop n p a b) := by
  induction n generalizing p a b with
  | zero => rfl
  | succ n ih =>
    rw [gmulLoop_succ, gmulLoop_succ, ← ih, linear_xtime.1, apply_ite xtime, linear_xtime.2]

theorem gmul_xor_left (a c b : Byte) : gmul (a ^^^ c) b = gmul a b ^^^ gmul c b := gmulLoop_xor_left 8 0 0 a c b

theorem gmul_xor_right (a b d : Byte) : gmul a (b ^^^ d) = gmul a b ^^^ gmul a d := gmulLoop_xor_right 8 0 0 a b d

theorem linear_gmul_left (b : Byte) : linearTable fun a => gmul a b := linearTable_of_xor fun a c => gmul_xor_left a c b

theorem linear_gmul_right (a : Byte) : linearTable (gmul a) := linearTable_of_xor (gmul_xor_right a)

theorem gmul_xtime (a b : Byte) : gmul (xtime a) b = xtime (gmul a b) := gmulLoop_xtime 8 0 a b

theorem gmul_iterate_xtime (k : Nat) (a b : Byte) : gmul (xtime^[k] a) b = xtime^[k] (gmul a b) :=
  Function.Semiconj.iterate_right (f := fun a => gmul a b) (fun a => gmul_xtime a b) k a

/-- Multiplication by a power of two is repeated `xtime`: the loop adds one term. -/
theorem gmul_twoPow (a : Byte) (k : Fin 8) : gmul a (BitVec.twoPow 8 k) = xtime^[k] a := by
  fin_cases k <;> exact BitVec.zero_xor

/-! ### The laws of the product -/

theorem gmul_zero (a : Byte) : gmul a 0 = 0 := (linear_gmul_right a).2

theorem one_gmul (b : Byte) : gmul 1 b = b := by
  have hpowers : ∀ i : Fin 8, gmul 1 (BitVec.twoPow 8 i) = BitVec.twoPow 8 i := by decide
  exact (linear_gmul_right 1).ext (linearTable_of_xor (f := id) fun _ _ => rfl) hpowers b

theorem twoPow_gmul (k : Fin 8) (b : Byte) : gmul (BitVec.twoPow 8 k) b = xtime^[k] b := by
  rw [← one_gmul (BitVec.twoPow 8 k), gmul_twoPow, gmul_iterate_xtime, one_gmul]

theorem gmul_comm (a b : Byte) : gmul a b = gmul b a :=
  (linear_gmul_left b).ext (linear_gmul_right b) (fun k => (twoPow_gmul k b).trans (gmul_twoPow b k).symm) a

theorem gmul_one (a : Byte) : gmul a 1 = a := (gmul_comm a 1).trans (one_gmul a)

theorem gmul_assoc (a b c : Byte) : gmul (gmul a b) c = gmul a (gmul b c) := by
  refine (linear_gmul_right (gmul a b)).ext ((linear_gmul_right a).comp (linear_gmul_right b)) (fun k => ?_) c
  rw [gmul_twoPow, gmul_twoPow, gmul_comm a (xtime^[k] b), gmul_iterate_xtime, gmul_comm b a]

/-- A byte has at most one inverse. -/
theorem gmul_inverse_unique {a b c : Byte} (hb : gmul a b = 1) (hc : gmul a c = 1) : c = b := by
  calc c = gmul c (gmul a b) := by rw [hb, gmul_one]
    _ = gmul (gmul a c) b := by rw [← gmul_assoc, gmul_comm c a]
    _ = b := by rw [hc, gmul_comm, gmul_one]

/-- Multiplication by a byte that has an inverse is a bijection. -/
theorem bijective_gmul_of_inverse {b c : Byte} (h : gmul b c = 1) : Function.Bijective fun a => gmul a b := by
  refine Finite.injective_iff_bijective.1 (Function.LeftInverse.injective (g := fun a => gmul a c) fun a => ?_)
  exact (gmul_assoc a b c).trans (by rw [h, gmul_one])

end Sys2Proof.Machine
end

section
/-! The obligation on the field product. -/

open Sys2Proof Sys2Proof.Machine

/-- Settles O13: the product is linear in each operand and moves past `xtime`, so the powers of two commute with every byte. -/
theorem fieldProductLaws : Obligations.FieldProductLaws := by
  unfold Obligations.FieldProductLaws
  exact ⟨gmul_comm, fun a => ⟨gmul_one a, gmul_zero a⟩, fun a b c => gmul_xor_left a c b, by decide, by decide⟩

end

section
/-! The tables (R93 to R98): a listing is compared with its construction row by row; the other properties of a multiplication table
follow from the laws of the product. -/

namespace Sys2Proof.Machine

/-! ### The multiplication tables -/

/-- The index of entry `c` in row `r` is an exclusive-or of the two. -/
theorem index_eq_xor : ∀ r c : Fin 16, BitVec.ofNat 8 (16 * r.val + c.val) = BitVec.ofNat 8 (16 * r.val) ^^^ BitVec.ofNat 8 c.val := by
  decide

/-- A linear map is listed by its values at the first entries of the rows and in the first row. -/
theorem tableEntry_of_linear {rows : List Nat} {f : Byte → Byte} (hf : linearTable f)
    (h : ∀ r c : Fin 16, rowEntry (rows.getD r.val 0) c = f (BitVec.ofNat 8 (16 * r.val)) ^^^ f (BitVec.ofNat 8 c.val)) (x : Byte) :
    tableEntry rows x = f x := by
  refine tableEntry_of_rows (P := fun x v => v = f x) (fun r c => ?_) x
  rw [h, index_eq_xor, hf.1]

theorem mul2_eq_gmul (x : Byte) : mul2 x = gmul x 2 :=
  tableEntry_of_linear (linear_gmul_left 2) (by decide +kernel) x

theorem mul3_eq_gmul (x : Byte) : mul3 x = gmul x 3 :=
  tableEntry_of_linear (linear_gmul_left 3) (by decide +kernel) x

theorem mul9_eq_gmul (x : Byte) : mul9 x = gmul x 9 :=
  tableEntry_of_linear (linear_gmul_left 9) (by decide +kernel) x

theorem mul11_eq_gmul (x : Byte) : mul11 x = gmul x 11 :=
  tableEntry_of_linear (linear_gmul_left 11) (by decide +kernel) x

theorem mul13_eq_gmul (x : Byte) : mul13 x = gmul x 13 :=
  tableEntry_of_linear (linear_gmul_left 13) (by decide +kernel) x

theorem mul14_eq_gmul (x : Byte) : mul14 x = gmul x 14 :=
  tableEntry_of_linear (linear_gmul_left 14) (by decide +kernel) x

theorem gmul_two (x : Byte) : gmul x 2 = xtime x := gmul_twoPow x 1

theorem gmul_four (x : Byte) : gmul x 4 = xtime (xtime x) := gmul_twoPow x 2

theorem gmul_eight (x : Byte) : gmul x 8 = xtime (xtime (xtime x)) := gmul_twoPow x 3

/-! The `xtime` forms of R97: the constants are sums of powers of two. -/

theorem mul2_eq_xtime (x : Byte) : mul2 x = xtime x := by
  rw [mul2_eq_gmul, gmul_two]

theorem mul3_eq_xtime (x : Byte) : mul3 x = xtime x ^^^ x := by
  rw [mul3_eq_gmul, show (3 : Byte) = 2 ^^^ 1 from rfl, gmul_xor_right, gmul_two, gmul_one]

theorem mul9_eq_xtime (x : Byte) : mul9 x = xtime (xtime (xtime x)) ^^^ x := by
  rw [mul9_eq_gmul, show (9 : Byte) = 8 ^^^ 1 from rfl, gmul_xor_right, gmul_eight, gmul_one]

theorem mul11_eq_xtime (x : Byte) : mul11 x = xtime (xtime (xtime x)) ^^^ xtime x ^^^ x := by
  rw [mul11_eq_gmul, show (11 : Byte) = 8 ^^^ 2 ^^^ 1 from rfl, gmul_xor_right, gmul_xor_right, gmul_eight, gmul_two, gmul_one]

theorem mul13_eq_xtime (x : Byte) : mul13 x = xtime (xtime (xtime x)) ^^^ xtime (xtime x) ^^^ x := by
  rw [mul13_eq_gmul, show (13 : Byte) = 8 ^^^ 4 ^^^ 1 from rfl, gmul_xor_right, gmul_xor_right, gmul_eight, gmul_four, gmul_one]

theorem mul14_eq_xtime (x : Byte) : mul14 x = xtime (xtime (xtime x)) ^^^ xtime (xtime x) ^^^ xtime x := by
  rw [mul14_eq_gmul, show (14 : Byte) = 8 ^^^ 4 ^^^ 2 from rfl, gmul_xor_right, gmul_xor_right, gmul_eight, gmul_four, gmul_two]

/-- A table that multiplies by a byte with an inverse (R98 (b), (c)). -/
theorem linear_bijective_of_gmul {table : Byte → Byte} {b : Byte} (htable : ∀ x, table x = gmul x b) (c : Byte) (h : gmul b c = 1) :
    linearTable table ∧ Function.Bijective table := by
  obtain rfl : table = fun x => gmul x b := funext htable
  exact ⟨linear_gmul_left b, bijective_gmul_of_inverse h⟩

/-- R98 (e): in the field each of the four sums of products is one product, by 1 or by 0. -/
theorem mixCancels_of_field (a : Byte) : mixCancels a := by
  simp only [mixCancels, mul2_eq_gmul, mul3_eq_gmul, mul9_eq_gmul, mul11_eq_gmul, mul13_eq_gmul, mul14_eq_gmul, gmul_assoc,
    ← gmul_xor_right]
  rw [show gmul 2 14 ^^^ 11 ^^^ 13 ^^^ gmul 3 9 = 1 by decide, show gmul 3 14 ^^^ gmul 2 11 ^^^ 13 ^^^ 9 = 0 by decide,
    show 14 ^^^ gmul 3 11 ^^^ gmul 2 13 ^^^ 9 = 0 by decide, show 14 ^^^ 11 ^^^ gmul 3 13 ^^^ gmul 2 9 = 0 by decide]
  exact ⟨gmul_one a, gmul_zero a, gmul_zero a, gmul_zero a⟩

/-! ### The S-box and the inverse. A check of all 256 entries is cut into one per row, which keeps the kernel's memory small. -/

theorem sbox_movesEveryByte : movesEveryByte sbox :=
  tableEntry_of_rows (P := fun x v => v ≠ x ∧ v ≠ x ^^^ 0xFF) fun r => by fin_cases r <;> decide +kernel

theorem isInverseOf_zero {b : Byte} : isInverseOf 0 b ↔ b = 0 := by
  rw [isInverseOf, if_pos rfl]

theorem isInverseOf_nonzero {a b : Byte} (h : a ≠ 0) : isInverseOf a b ↔ gmul a b = 1 := by
  rw [isInverseOf, if_neg h]

theorem isInverseOf_unique {a b c : Byte} (hb : isInverseOf a b) (hc : isInverseOf a c) : c = b := by
  by_cases ha : a = 0
  · subst ha
    rw [isInverseOf_zero.1 hb, isInverseOf_zero.1 hc]
  · exact gmul_inverse_unique ((isInverseOf_nonzero ha).1 hb) ((isInverseOf_nonzero ha).1 hc)

/-- The affine map of R94 read backwards: the inverse that an S-box entry is made from. -/
def inverseFromSbox (v : Byte) : Byte := rotl8 v 1 ^^^ rotl8 v 3 ^^^ rotl8 v 6 ^^^ 0x05

/-- R94 at every byte: the byte that the entry was made from is the inverse. -/
theorem sbox_from_inverse : ∀ x, isInverseOf x (inverseFromSbox (sbox x)) ∧ sbox x = sboxFromInverse (inverseFromSbox (sbox x)) := by
  refine tableEntry_of_rows (P := fun x v => isInverseOf x (inverseFromSbox v) ∧ v = sboxFromInverse (inverseFromSbox v)) fun r => ?_
  unfold isInverseOf
  fin_cases r <;> decide +kernel

end Sys2Proof.Machine
end

section
/-! The obligations on the tables. -/

open Sys2Proof Sys2Proof.Machine

/-- Settles O9: the listings have the `xtime` forms, which are the products with the constants written in powers of two. -/
theorem mulTablesAreFieldProducts : Obligations.MulTablesAreFieldProducts := by
  unfold Obligations.MulTablesAreFieldProducts
  exact fun x => ⟨mul2_eq_gmul x, mul3_eq_gmul x, mul9_eq_gmul x, mul11_eq_gmul x, mul13_eq_gmul x, mul14_eq_gmul x,
    mul2_eq_xtime x, mul3_eq_xtime x, mul9_eq_xtime x, mul11_eq_xtime x, mul13_eq_xtime x, mul14_eq_xtime x⟩

/-- Settles O10: the byte read back from the S-box entry is an inverse, and by the laws of the product there is no other. -/
theorem sboxIsAffineImageOfInverse : Obligations.SboxIsAffineImageOfInverse := by
  unfold Obligations.SboxIsAffineImageOfInverse
  have hinverse (a : Byte) := (sbox_from_inverse a).1
  refine ⟨fun a => ⟨_, hinverse a, fun c hc => isInverseOf_unique (hinverse a) hc⟩, isInverseOf_zero.2 rfl,
    (isInverseOf_nonzero (by decide)).2 (by decide), (isInverseOf_nonzero (by decide)).2 (by decide), fun x b hb => ?_, bijective_sbox⟩
  rw [isInverseOf_unique (hinverse x) hb]
  exact (sbox_from_inverse x).2

/-- Settles O11, entry by entry of the two listings. -/
theorem invSboxUndoesSbox : Obligations.InvSboxUndoesSbox := sbox_invSbox_inverse

/-- Settles O12: the ten listed constants. -/
theorem roundConstantsDouble : Obligations.RoundConstantsDouble := by
  unfold Obligations.RoundConstantsDouble
  decide

/-- Settles O14: each table multiplies by a byte that has an inverse. -/
theorem mulTablesAreLinearBijections : Obligations.MulTablesAreLinearBijections := by
  unfold Obligations.MulTablesAreLinearBijections
  simp only [List.forall_mem_cons]
  exact ⟨linear_bijective_of_gmul mul2_eq_gmul 0x8D (by decide), linear_bijective_of_gmul mul3_eq_gmul 0xF6 (by decide),
    linear_bijective_of_gmul mul9_eq_gmul 0x4F (by decide), linear_bijective_of_gmul mul11_eq_gmul 0xC0 (by decide),
    linear_bijective_of_gmul mul13_eq_gmul 0xE1 (by decide), linear_bijective_of_gmul mul14_eq_gmul 0xE5 (by decide), nofun⟩

/-- Settles O15: the tables are compared entry by entry; the four identities are products by 1 and by 0. -/
theorem sboxAndMixIdentities : Obligations.SboxAndMixIdentities :=
  ⟨bijective_sbox, bijective_invSbox, sbox_invSbox_inverse, sbox_movesEveryByte, mixCancels_of_field⟩

end

section
/-! The lookup commands (R99 to R108). -/

namespace Sys2Proof.Machine

theorem rconIndex?_ofNat (n : Fin 10) : rconIndex? (BitVec.ofNat 8 n.val) = some n := by
  revert n
  decide

theorem exec_lrcon {n : Byte} {k : Fin 10} (h : rconIndex? n = some k) (s : State) : exec (.lrcon n) s = .next (s.lookedUp (rcon k)) := by
  simp only [exec, execLrcon, h]

/-- A well-formed lookup completes and only puts a value into `LQ` (R99). -/
theorem exec_lookup {x n : Byte} {i : Instr} (hn : n.toNat ≤ 9)
    (hi : i ∈ [Instr.lsbox x, .lisbox x, .lmul2 x, .lmul3 x, .lmul9 x, .lmul11 x, .lmul13 x, .lmul14 x, .lrcon n]) (s : State) :
    ∃ v, exec i s = .next (s.lookedUp v) := by
  simp only [List.mem_cons, List.not_mem_nil, or_false] at hi
  rcases hi with rfl | rfl | rfl | rfl | rfl | rfl | rfl | rfl | rfl
  on_goal 9 => exact ⟨_, exec_lrcon (rconIndex?_eq hn) s⟩
  all_goals exact ⟨_, rfl⟩

end Sys2Proof.Machine
end

section
/-! The obligations on the lookup commands. -/

open Sys2Proof Sys2Proof.Machine

/-- Settles O16: each word is that of its command, whose effect is the lookup. -/
theorem sboxLookupResults : Obligations.SboxLookupResults := by
  unfold Obligations.SboxLookupResults
  refine ⟨fun x s => ⟨?_, rfl, ?_, rfl⟩, by decide⟩
  · exact decode_encode (i := .lsbox x) rfl
  · exact decode_encode (i := .lisbox x) rfl

/-- Settles O17: each word is that of its command, whose effect is the lookup; `MUL2` is `xtime`, which reduces from 0x80 upward. -/
theorem mulLookupResults : Obligations.MulLookupResults := by
  unfold Obligations.MulLookupResults
  refine ⟨fun x s => ⟨?_, rfl, ?_, rfl, ?_, rfl, ?_, rfl, ?_, rfl, ?_, rfl⟩, mul2_eq_xtime, by decide⟩
  · exact decode_encode (i := .lmul2 x) rfl
  · exact decode_encode (i := .lmul3 x) rfl
  · exact decode_encode (i := .lmul9 x) rfl
  · exact decode_encode (i := .lmul11 x) rfl
  · exact decode_encode (i := .lmul13 x) rfl
  · exact decode_encode (i := .lmul14 x) rfl

/-- Settles O18: an index up to 9 is well formed; a larger one is refused by format N, and the illegal word only flags. -/
theorem rconLookupResults : Obligations.RconLookupResults := by
  unfold Obligations.RconLookupResults
  refine ⟨fun n s => ⟨?_, exec_lrcon (rconIndex?_ofNat n) s⟩, by decide, by decide, by decide, fun n s rest hn => ?_⟩
  · refine decode_encode (i := .lrcon (BitVec.ofNat 8 n)) (decide_eq_true ?_)
    rw [BitVec.toNat_ofNat]
    omega
  · have hword : decode (encode (.lrcon n)) = .illegal .roundConstantOutOfRange := by
      rw [decode_encode_lrcon]
      exact if_neg (by omega)
    exact illegalWordOnlyFlags _ _ _ rest rfl hword

/-- Settles O46: a lookup that completes has only put a value into `LQ`. -/
theorem frameOfLookupCommands : Obligations.FrameOfLookupCommands := by
  unfold Obligations.FrameOfLookupCommands
  intro x n i s t hn hi hexec
  obtain ⟨v, hv⟩ := exec_lookup hn hi s
  obtain rfl := Host.Outcome.next.inj (hv.symm.trans hexec)
  exact ⟨rfl, rfl, rfl, rfl, rfl, ⟨rfl, rfl, fun _ => rfl, fun _ => rfl⟩, rfl⟩

end

section
/-! Key expansion and `SETKEY` (R120 to R128). -/

namespace Sys2Proof.Machine

/-! ### One expansion round -/

/-- `t` after step 3, with the round constant added in row 0 only (R125). -/
@[simp] theorem expandT_get (rc : Byte) (p : Block) (i : Fin 4) :
    (expandT rc p).get i = sbox (p.get (i + 1) 3) ^^^ (if i = 0 then rc else 0) := by
  rw [expandT, Row.get_ofFn]
  split
  · rfl
  · exact BitVec.xor_zero.symm

@[simp] theorem expandRound_row (rc : Byte) (p : Block) (i : Fin 4) :
    (expandRound rc p).row i = expandRow ((expandT rc p).get i) (p.row i) :=
  Block.row_ofRows _ i

/-- Step 5: each column after the first adds the new column before it to the old one (R126). -/
theorem expandRow_get_succ (t : Byte) (old : Row) (c : Fin 3) :
    (expandRow t old).get c.succ = old.get c.castSucc ^^^ (expandRow t old).get c.castSucc := by
  fin_cases c <;> rfl

/-- The old column 0, which is in the new one, cancels from column 1, and `t` is left (R128). -/
theorem expandRow_c1 (t : Byte) (old : Row) : (expandRow t old).c1 = t := by
  change old.c0 ^^^ (old.c0 ^^^ t) = t
  rw [← BitVec.xor_assoc, BitVec.xor_self, BitVec.zero_xor]

theorem expandRow_c2 (t : Byte) (old : Row) : (expandRow t old).c2 = old.c1 ^^^ t :=
  congrArg (old.c1 ^^^ ·) (expandRow_c1 t old)

theorem expandRow_c3 (t : Byte) (old : Row) : (expandRow t old).c3 = old.c2 ^^^ old.c1 ^^^ t := by
  rw [BitVec.xor_assoc]
  exact congrArg (old.c2 ^^^ ·) (expandRow_c2 t old)

/-! ### The schedule -/

/-- Each round key but the first is one expansion round of the round key before it (R123). -/
theorem expand_key_succ (key : Block) (r : Fin 10) :
    (expand key).key r.succ = expandRound (rcon r) ((expand key).key r.castSucc) := by
  fin_cases r <;> rfl

theorem expand_row_succ (key : Block) (r : Fin 10) (i : Fin 4) :
    ((expand key).key r.succ).row i =
      expandRow ((expandT (rcon r) ((expand key).key r.castSucc)).get i) (((expand key).key r.castSucc).row i) := by
  rw [expand_key_succ, expandRound_row]

/-! ### Rejecting a key -/

/-- A key rejected at `SETKEY` (R120, R122). -/
theorem exec_setkey_short (s : State) {klen : Byte} (h : klen.toNat < 16) : exec (.setkey klen) s = .next s.rejectKey := by
  simp [exec, execSetkey, keyValid, h]

end Sys2Proof.Machine
end

section
/-! The obligations on the key schedule and `SETKEY`. -/

open Sys2Proof Sys2Proof.Machine

/-- Settles O25: every round key after the first is one expansion round, whose rows are steps 4 and 5. -/
theorem expandFollowsSteps : Obligations.ExpandFollowsSteps := by
  unfold Obligations.ExpandFollowsSteps
  refine fun key => ⟨fun i j => ?_, rfl, rfl, fun r i => ⟨?_, fun c => ?_⟩⟩
  · rw [Schedule.byte_scheduleRow, expand_key_zero, Block.byte, byteRow_byteNumber, byteColumn_byteNumber]
  · simp only [Schedule.byte_scheduleRow, ← expandT_get]
    exact congrArg (Row.get · 0) (expand_row_succ key r i)
  · simp only [Schedule.byte_scheduleRow, Block.get, expand_row_succ]
    exact expandRow_get_succ _ _ c

/-- Settles O26: column 1 is `t`, and columns 2 and 3 follow from it in order. -/
theorem expandClosedForms : Obligations.ExpandClosedForms := by
  unfold Obligations.ExpandClosedForms
  rintro key r i a rfl b hb t ht
  rw [expand_row_succ, ht] at hb
  subst hb
  exact ⟨ht.symm.trans (expandT_get _ _ i), rfl, expandRow_c1 t _, rfl, rfl, expandRow_c2 t _, rfl, expandRow_c3 t _⟩

/-- Settles O27: the word is that of its command, which accepts or rejects the key by its length. -/
theorem setkeyAcceptsOrRejects : Obligations.SetkeyAcceptsOrRejects := by
  unfold Obligations.SetkeyAcceptsOrRejects
  exact fun klen s => ⟨decode_encode (i := .setkey klen) rfl, exec_setkey_valid s, exec_setkey_short s⟩

/-- Settles O28: the three cases of the key option. -/
theorem keyOptionRule : Obligations.KeyOptionRule := by
  unfold Obligations.KeyOptionRule
  exact fun klen s => ⟨s.keyOption_absent, s.keyOption_valid, fun h1 h15 => s.keyOption_short (by omega) (by omega)⟩

/-- Settles O48: accepting a key leaves `ERR`, rejecting one sets `INVKEY` alone, and `CLRERR` writes only `ERR`. -/
theorem frameOfSetkeyAndClrerr : Obligations.FrameOfSetkeyAndClrerr := by
  unfold Obligations.FrameOfSetkeyAndClrerr
  intro klen i s t hi hexec
  simp only [List.mem_cons, List.not_mem_nil, or_false] at hi
  rcases hi with rfl | rfl
  · rcases Nat.lt_or_ge klen.toNat 16 with hk | hk
    · obtain rfl := Host.Outcome.next.inj ((exec_setkey_short s hk).symm.trans hexec)
      have herr : s.rejectKey.err ||| 0x01 = s.err ||| 0x01 := errSet_errSet s.err .invkey
      exact ⟨rfl, rfl, rfl, ⟨rfl, rfl, fun _ => rfl, fun _ => rfl⟩, rfl, fun _ => herr, nofun⟩
    · obtain rfl := Host.Outcome.next.inj ((exec_setkey_valid s hk).symm.trans hexec)
      exact ⟨rfl, rfl, rfl, ⟨rfl, rfl, fun _ => rfl, fun _ => rfl⟩, rfl, fun _ => rfl, nofun⟩
  · obtain rfl := Host.Outcome.next.inj hexec
    exact ⟨rfl, rfl, rfl, ⟨rfl, rfl, fun _ => rfl, fun _ => rfl⟩, rfl, nofun, fun _ => ⟨rfl, rfl⟩⟩

end

section
/-! The round primitives row by row (R135 to R145): what each makes of a row and of a cell, and which pairs undo each other. -/

namespace Sys2Proof.Machine

variable (w : Schedule) (r : Fin 11) (m : Block) (k : Fin 4)

/-! ### One row of the result, from the same row of the operands (R144) -/

@[simp] theorem addRoundKey_row : (addRoundKey w r m).row k = Row.ofFn fun j => (m.row k).get j ^^^ ((w.key r).row k).get j :=
  (Block.row_ofRows _ k).trans (congrArg Row.ofFn (funext fun j => congrArg (m.get k j ^^^ ·) (w.byte_scheduleRow r k j)))

@[simp] theorem subBytes_row : (subBytes m).row k = Row.ofFn fun j => sbox ((m.row k).get j) := Block.row_ofRows _ k

@[simp] theorem shiftRows_row : (shiftRows m).row k = Row.ofFn fun j => (m.row k).get (j + k) := Block.row_ofRows _ k

@[simp] theorem mix_row : (mix m).row k = mixRow (m.row k) := Block.row_ofRows _ k

@[simp] theorem invSubBytes_row : (invSubBytes m).row k = Row.ofFn fun j => invSbox ((m.row k).get j) := Block.row_ofRows _ k

@[simp] theorem invShiftRows_row : (invShiftRows m).row k = Row.ofFn fun j => (m.row k).get (j - k) := Block.row_ofRows _ k

@[simp] theorem invMix_row : (invMix m).row k = invMixRow (m.row k) := Block.row_ofRows _ k

/-! ### One cell of the result -/

variable (i j : Fin 4)

@[simp] theorem addRoundKey_get : (addRoundKey w r m).get i j = m.get i j ^^^ w.byte (scheduleRow r i) j := Block.get_ofFn _ i j

@[simp] theorem subBytes_get : (subBytes m).get i j = sbox (m.get i j) := Block.get_ofFn _ i j

@[simp] theorem shiftRows_get : (shiftRows m).get i j = m.get i (j + i) := Block.get_ofFn _ i j

@[simp] theorem invSubBytes_get : (invSubBytes m).get i j = invSbox (m.get i j) := Block.get_ofFn _ i j

@[simp] theorem invShiftRows_get : (invShiftRows m).get i j = m.get i (j - i) := Block.get_ofFn _ i j

/-! ### The pairs that undo each other, but for the mixing (R143) -/

/-- A round key added twice cancels (R136). -/
theorem addRoundKey_addRoundKey : addRoundKey w r (addRoundKey w r m) = m :=
  Block.ext_get fun i j => by rw [addRoundKey_get, addRoundKey_get, BitVec.xor_assoc, BitVec.xor_self, BitVec.xor_zero]

theorem addRoundKey_zero : addRoundKey Schedule.zero r m = m :=
  Block.ext_get fun i j => by simp

theorem invSubBytes_subBytes : invSubBytes (subBytes m) = m :=
  Block.ext_get fun i j => by rw [invSubBytes_get, subBytes_get, (sbox_invSbox_inverse _).1]

theorem subBytes_invSubBytes : subBytes (invSubBytes m) = m :=
  Block.ext_get fun i j => by rw [subBytes_get, invSubBytes_get, (sbox_invSbox_inverse _).2]

theorem invShiftRows_shiftRows : invShiftRows (shiftRows m) = m :=
  Block.ext_get fun i j => by rw [invShiftRows_get, shiftRows_get, sub_add_cancel]

theorem shiftRows_invShiftRows : shiftRows (invShiftRows m) = m :=
  Block.ext_get fun i j => by rw [shiftRows_get, invShiftRows_get, add_sub_cancel_right]

end Sys2Proof.Machine
end

section
/-! The mixing (R139, R142). A row is read as a polynomial of degree below 4 over the field of R92, column `c` the coefficient of `x^c`:
mixing multiplies it by a fixed polynomial modulo `x^4 + 1`, and the two fixed polynomials are inverse to each other. -/

namespace Sys2Proof.Machine

/-- The product of two rows as polynomials modulo `x^4 + 1`. -/
def Row.polyMul (q a : Row) : Row where
  c0 := gmul a.c0 q.c0 ^^^ gmul a.c1 q.c3 ^^^ gmul a.c2 q.c2 ^^^ gmul a.c3 q.c1
  c1 := gmul a.c0 q.c1 ^^^ gmul a.c1 q.c0 ^^^ gmul a.c2 q.c3 ^^^ gmul a.c3 q.c2
  c2 := gmul a.c0 q.c2 ^^^ gmul a.c1 q.c1 ^^^ gmul a.c2 q.c0 ^^^ gmul a.c3 q.c3
  c3 := gmul a.c0 q.c3 ^^^ gmul a.c1 q.c2 ^^^ gmul a.c2 q.c1 ^^^ gmul a.c3 q.c0

theorem Row.polyMul_assoc (q p a : Row) : q.polyMul (p.polyMul a) = (q.polyMul p).polyMul a := by
  simp only [Row.polyMul, gmul_xor_left, gmul_xor_right, gmul_assoc, Row.mk.injEq]
  refine ⟨?_, ?_, ?_, ?_⟩ <;> ac_rfl

theorem Row.one_polyMul (a : Row) : Row.polyMul ⟨1, 0, 0, 0⟩ a = a := by
  simp only [Row.polyMul, gmul_one, gmul_zero]
  simp

/-- Equal coefficients stay as they are when those of the factor add up to 1. -/
theorem Row.polyMul_const {q : Row} (h : q.c0 ^^^ q.c1 ^^^ q.c2 ^^^ q.c3 = 1) (v : Byte) : q.polyMul ⟨v, v, v, v⟩ = ⟨v, v, v, v⟩ := by
  have hv : gmul v q.c0 ^^^ gmul v q.c1 ^^^ gmul v q.c2 ^^^ gmul v q.c3 = v := by
    rw [← gmul_xor_right, ← gmul_xor_right, ← gmul_xor_right, h, gmul_one]
  simp only [Row.polyMul, Row.mk.injEq]
  refine ⟨?_, ?_, ?_, ?_⟩ <;> refine Eq.trans ?_ hv <;> ac_rfl

theorem Row.polyMul_xor (q a b : Row) :
    q.polyMul (Row.ofFn fun j => a.get j ^^^ b.get j) = Row.ofFn fun j => (q.polyMul a).get j ^^^ (q.polyMul b).get j := by
  simp only [Row.polyMul, Row.ofFn, Row.get, gmul_xor_left, Row.mk.injEq]
  refine ⟨?_, ?_, ?_, ?_⟩ <;> ac_rfl

/-- The polynomial of the forward mixing: column 0 of the matrix of R139. -/
def mixPoly : Row := ⟨2, 1, 1, 3⟩

/-- The polynomial of the inverse mixing: column 0 of the matrix of R142. -/
def invMixPoly : Row := ⟨14, 9, 13, 11⟩

theorem mixRow_eq_polyMul (a : Row) : mixRow a = mixPoly.polyMul a := by
  simp only [mixRow, mixPoly, Row.polyMul, mul2_eq_gmul, mul3_eq_gmul, gmul_one]

theorem invMixRow_eq_polyMul (a : Row) : invMixRow a = invMixPoly.polyMul a := by
  simp only [invMixRow, invMixPoly, Row.polyMul, mul9_eq_gmul, mul11_eq_gmul, mul13_eq_gmul, mul14_eq_gmul]

theorem invMixRow_mixRow (a : Row) : invMixRow (mixRow a) = a := by
  rw [invMixRow_eq_polyMul, mixRow_eq_polyMul, Row.polyMul_assoc, show invMixPoly.polyMul mixPoly = ⟨1, 0, 0, 0⟩ by decide,
    Row.one_polyMul]

theorem mixRow_invMixRow (a : Row) : mixRow (invMixRow a) = a := by
  rw [invMixRow_eq_polyMul, mixRow_eq_polyMul, Row.polyMul_assoc, show mixPoly.polyMul invMixPoly = ⟨1, 0, 0, 0⟩ by decide,
    Row.one_polyMul]

theorem mixRow_const (v : Byte) : mixRow ⟨v, v, v, v⟩ = ⟨v, v, v, v⟩ :=
  (mixRow_eq_polyMul _).trans (Row.polyMul_const (by decide) v)

theorem invMixRow_const (v : Byte) : invMixRow ⟨v, v, v, v⟩ = ⟨v, v, v, v⟩ :=
  (invMixRow_eq_polyMul _).trans (Row.polyMul_const (by decide) v)

theorem invMix_mix (m : Block) : invMix (mix m) = m :=
  Block.ext_row fun i => by rw [invMix_row, mix_row, invMixRow_mixRow]

theorem mix_invMix (m : Block) : mix (invMix m) = m :=
  Block.ext_row fun i => by rw [mix_row, invMix_row, mixRow_invMixRow]

/-- The mixing is linear over exclusive-or (R139). -/
theorem mix_xor (x y : Block) :
    mix (Block.ofFn fun i j => x.get i j ^^^ y.get i j) = Block.ofFn fun i j => (mix x).get i j ^^^ (mix y).get i j :=
  Block.ext_row fun i => by
    simp only [Block.ofFn, mix_row, Block.row_ofRows, Block.get, mixRow_eq_polyMul]
    exact Row.polyMul_xor _ _ _

end Sys2Proof.Machine
end

section
/-! Row locality (R144): operands that agree in a row give results that agree in it. -/

namespace Sys2Proof.Machine

variable {k : Fin 4}

/-- Rounds that keep the agreement in a row keep it one after another. -/
theorem foldl_row_congr {f g : Block → Fin 11 → Block} (hround : ∀ r m n, m.row k = n.row k → (f m r).row k = (g n r).row k)
    (rounds : List (Fin 11)) {m n : Block} (h : m.row k = n.row k) : (rounds.foldl f m).row k = (rounds.foldl g n).row k := by
  induction rounds generalizing m n with
  | nil => exact h
  | cons r rounds ih => exact ih (hround r m n h)

variable {w v : Schedule} (hw : ∀ r : Fin 11, (w.key r).row k = (v.key r).row k)
include hw

theorem forwardRound_row_congr (r : Fin 11) (m n : Block) (h : m.row k = n.row k) :
    (forwardRound w m r).row k = (forwardRound v n r).row k := by
  simp only [forwardRound, addRoundKey_row, mix_row, shiftRows_row, subBytes_row, h, hw]

theorem inverseRound_row_congr (r : Fin 11) (m n : Block) (h : m.row k = n.row k) :
    (inverseRound w m r).row k = (inverseRound v n r).row k := by
  simp only [inverseRound, invSubBytes_row, invShiftRows_row, invMix_row, addRoundKey_row, h, hw]

theorem enc_row_congr {m n : Block} (h : m.row k = n.row k) : (enc m w).row k = (enc n v).row k := by
  have hfirst : (addRoundKey w 0 m).row k = (addRoundKey v 0 n).row k := by simp only [addRoundKey_row, h, hw]
  simp only [enc, addRoundKey_row, shiftRows_row, subBytes_row, hw, foldl_row_congr (forwardRound_row_congr hw) _ hfirst]

theorem dec_row_congr {m n : Block} (h : m.row k = n.row k) : (dec m w).row k = (dec n v).row k := by
  have hfirst : (invSubBytes (invShiftRows (addRoundKey w 10 m))).row k = (invSubBytes (invShiftRows (addRoundKey v 10 n))).row k := by
    simp only [invSubBytes_row, invShiftRows_row, addRoundKey_row, h, hw]
  simp only [dec, addRoundKey_row, hw, foldl_row_congr (inverseRound_row_congr hw) _ hfirst]

end Sys2Proof.Machine
end

section
/-! The step and block commands on the state (R135, R160). -/

namespace Sys2Proof.Machine

theorem roundNumber?_ofNat (r : Fin 11) : roundNumber? (BitVec.ofNat 8 r.val) = some r := by
  revert r
  decide

/-- Flagging `UNINIT` sets bit 1 of `ERR` when no key is configured (R205), and the new `ST` is `m`. -/
theorem State.flagUninit_withSt_eq (s : State) (m : Block) :
    s.flagUninit.withSt m = { s with st := m, err := if s.kcfg then s.err else s.err ||| 0x02 } := by
  rw [State.flagUninit_eq]
  rfl

/-- A step command that puts the first `ST` back restores the whole state. -/
theorem State.next_withSt_restored {s : State} {m m' : Block} (h : m' = s.st) :
    (.next ((s.withSt m).withSt m') : Host.Outcome State Fault Refusal) = .next s := by
  rw [h]
  rfl

/-- A second key addition with the same round key puts the first `ST` back, and flags nothing new. -/
theorem exec_ark_twice {r : Byte} {k : Fin 11} (h : roundNumber? r = some k) (s : State) :
    exec (.ark r) (s.flagUninit.withSt (addRoundKey s.w k s.st)) = .next (s.flagUninit.withSt s.st) := by
  have htransform : stepTransform? s.w (addRoundKey s.w k s.st) (.ark r) = some s.st :=
    Option.map_eq_some_iff.2 ⟨k, h, addRoundKey_addRoundKey s.w k s.st⟩
  obtain ⟨-, hexec⟩ := exec_stepTransform htransform s.port
  rwa [← s.midTransform_of_keyed, ← s.midTransform_of_keyed] at hexec

/-- A well-formed step or block command completes and writes `ST`; those that read `W`, and no others, may flag `UNINIT`. -/
theorem exec_stepOrBlock {r : Byte} {i : Instr} (hr : r.toNat ≤ 10)
    (hi : i ∈ [Instr.ark r, .subb, .shrow, .mixc, .isubb, .ishrow, .imixc, .encb, .decb]) (s : State) :
    (i ∈ [Instr.ark r, .encb, .decb] ∧ ∃ m, exec i s = .next (s.flagUninit.withSt m)) ∨
    (i ∉ [Instr.ark r, .encb, .decb] ∧ ∃ m, exec i s = .next (s.withSt m)) := by
  simp only [List.mem_cons, List.not_mem_nil, or_false] at hi
  rcases hi with rfl | rfl | rfl | rfl | rfl | rfl | rfl | rfl | rfl
  case inl => exact .inl ⟨by simp, _, exec_ark (roundNumber?_eq hr) s⟩
  on_goal 7 => exact .inl ⟨by simp, _, rfl⟩
  on_goal 7 => exact .inl ⟨by simp, _, rfl⟩
  all_goals exact .inr ⟨by simp, _, rfl⟩

end Sys2Proof.Machine
end

section
/-! The obligations on the round primitives. -/

open Sys2Proof Sys2Proof.Machine

/-- Settles O23: the second transform puts the first `ST` back, and nothing else was changed. -/
theorem stepCommandsUndoEachOther : Obligations.StepCommandsUndoEachOther := by
  unfold Obligations.StepCommandsUndoEachOther
  intro s
  simp only [List.forall_mem_cons]
  refine ⟨?_, ?_, ?_, ?_, ?_, ?_, nofun⟩
  · exact ⟨_, rfl, State.next_withSt_restored (invSubBytes_subBytes s.st)⟩
  · exact ⟨_, rfl, State.next_withSt_restored (subBytes_invSubBytes s.st)⟩
  · exact ⟨_, rfl, State.next_withSt_restored (invShiftRows_shiftRows s.st)⟩
  · exact ⟨_, rfl, State.next_withSt_restored (shiftRows_invShiftRows s.st)⟩
  · exact ⟨_, rfl, State.next_withSt_restored (invMix_mix s.st)⟩
  · exact ⟨_, rfl, State.next_withSt_restored (mix_invMix s.st)⟩

/-- Settles O24, command by command: each primitive, and so each round, makes row `k` from row `k` alone. -/
theorem rowsNeverInfluenceEachOther : Obligations.RowsNeverInfluenceEachOther := by
  unfold Obligations.RowsNeverInfluenceEachOther
  intro s u k r i hst hw hr hi
  simp only [List.mem_cons, List.not_mem_nil, or_false] at hi
  rcases hi with rfl | rfl | rfl | rfl | rfl | rfl | rfl | rfl | rfl
  case inl =>
    have hround := roundNumber?_eq hr
    exact ⟨_, _, exec_ark hround s, exec_ark hround u, by simp [hst, hw]⟩
  on_goal 7 => exact ⟨_, _, rfl, rfl, enc_row_congr hw hst⟩
  on_goal 7 => exact ⟨_, _, rfl, rfl, dec_row_congr hw hst⟩
  all_goals exact ⟨_, _, rfl, rfl, by simp [hst]⟩

/-- Settles O19: a round number up to 10 is well formed and its round key is added to `ST`, where a second addition cancels it and the
all-zero one does nothing; format R refuses a larger number. -/
theorem arkAddsRoundKey : Obligations.ArkAddsRoundKey := by
  unfold Obligations.ArkAddsRoundKey
  refine ⟨fun r s => ⟨s.flagUninit.withSt (addRoundKey s.w r s.st), ?_, exec_ark (roundNumber?_ofNat r) s, ?_, ?_, ?_, ?_⟩,
    fun r hr => ?_, by decide⟩
  · exact decode_encode (i := .ark (BitVec.ofNat 8 r.val)) (wellFormed_ark (roundNumber?_ofNat r))
  · exact s.flagUninit_withSt_eq _
  · exact addRoundKey_get s.w r s.st
  · exact exec_ark_twice (roundNumber?_ofNat r) s
  · intro hw
    rw [State.withSt_st, hw, addRoundKey_zero]
  · exact (decode_encode_ark r).trans (if_neg (by omega))

/-- Settles O20, cell by cell: no entry of `SBOX` is its own index, and the two tables are inverse to each other. -/
theorem substitutionStepResults : Obligations.SubstitutionStepResults := by
  unfold Obligations.SubstitutionStepResults
  refine ⟨by decide, by decide, by decide, by decide, fun s => ⟨⟨subBytes s.st, rfl, fun i j => ?_, ?_⟩, invSubBytes s.st, rfl, ?_, ?_⟩⟩
  · rw [subBytes_get]
    exact ⟨rfl, (sbox_movesEveryByte _).1⟩
  · exact State.next_withSt_restored (invSubBytes_subBytes s.st)
  · exact invSubBytes_get s.st
  · exact State.next_withSt_restored (subBytes_invSubBytes s.st)

/-- Settles O21: the column index is shifted by the row index, modulo 4. -/
theorem shiftStepResults : Obligations.ShiftStepResults := by
  unfold Obligations.ShiftStepResults
  refine ⟨by decide, by decide, ?_⟩
  intro s a0 a1 a2 a3 b0 b1 b2 b3 c0 c1 c2 c3 d0 d1 d2 d3 hst
  change Host.Outcome.next (s.withSt (shiftRows s.st)) = _ ∧ Host.Outcome.next (s.withSt (invShiftRows s.st)) = _
  rw [hst]
  exact ⟨rfl, rfl⟩

/-- Settles O22, row by row: the tables are the field products by the coefficients of the two matrices, whose polynomials have
coefficients that add up to 1 and are inverse to each other. -/
theorem mixStepResults : Obligations.MixStepResults := by
  unfold Obligations.MixStepResults
  refine ⟨by decide, by decide, by decide, by decide, by decide, by decide,
    fun s => ⟨mix s.st, rfl, ?_, fun i v hrow => ?_, ?_⟩, fun s => ⟨invMix s.st, rfl, ?_, fun i v hrow => ?_, ?_⟩, mix_xor⟩
  · rintro i a rfl
    simp only [Block.get, mix_row, ← mul2_eq_gmul, ← mul3_eq_gmul]
    exact ⟨rfl, rfl, rfl, rfl⟩
  · rw [mix_row, hrow, mixRow_const]
  · exact State.next_withSt_restored (invMix_mix s.st)
  · rintro i a rfl
    simp only [Block.get, invMix_row, ← mul9_eq_gmul, ← mul11_eq_gmul, ← mul13_eq_gmul, ← mul14_eq_gmul]
    exact ⟨rfl, rfl, rfl, rfl⟩
  · rw [invMix_row, hrow, invMixRow_const]
  · exact State.next_withSt_restored (mix_invMix s.st)

/-- Settles O47: a command that reads `W` writes `ST` and may flag `UNINIT`, the others write `ST` alone. -/
theorem frameOfStepAndBlockCommands : Obligations.FrameOfStepAndBlockCommands := by
  unfold Obligations.FrameOfStepAndBlockCommands
  intro r i s t hr hi hexec
  rcases exec_stepOrBlock hr hi s with ⟨hkeyed, m, hm⟩ | ⟨hkeyed, m, hm⟩
  · obtain rfl := Host.Outcome.next.inj (hm.symm.trans hexec)
    rw [State.flagUninit_withSt_eq]
    refine ⟨rfl, rfl, rfl, rfl, ⟨rfl, rfl, fun _ => rfl, fun _ => rfl⟩, rfl, ?_⟩
    cases hk : s.kcfg <;> simp [hkeyed]
  · obtain rfl := Host.Outcome.next.inj (hm.symm.trans hexec)
    exact ⟨rfl, rfl, rfl, rfl, ⟨rfl, rfl, fun _ => rfl, fun _ => rfl⟩, rfl, (if_neg fun h => hkeyed h.2).symm⟩

/-- Settles O55: the reset schedule is all zero, so the key addition leaves `ST`, and `UNINIT` is flagged. -/
theorem neverConfiguredCoreUsesZeros : Obligations.NeverConfiguredCoreUsesZeros := by
  unfold Obligations.NeverConfiguredCoreUsesZeros
  intro r s hw hk
  have hst : addRoundKey s.w r s.st = s.st := hw ▸ addRoundKey_zero r s.st
  rw [exec_ark (roundNumber?_ofNat r), State.flagUninit_withSt_eq, hst, hk]
  rfl

end

section
/-! The transforms undo each other (R164): each inverse round undoes the forward round of its number, and the inverse rounds come in the
opposite order. -/

namespace Sys2Proof.Machine

variable (w : Schedule) (m : Block)

theorem inverseRound_forwardRound (r : Fin 11) : inverseRound w (forwardRound w m r) r = m := by
  rw [inverseRound, forwardRound, addRoundKey_addRoundKey, invMix_mix, invShiftRows_shiftRows, invSubBytes_subBytes]

theorem forwardRound_inverseRound (r : Fin 11) : forwardRound w (inverseRound w m r) r = m := by
  rw [forwardRound, inverseRound, subBytes_invSubBytes, shiftRows_invShiftRows, mix_invMix, addRoundKey_addRoundKey]

/-- Rounds that each undo one of another transform undo them all, last round first. -/
theorem foldl_reverse_undoes_foldl {f g : Block → Fin 11 → Block} (hround : ∀ m r, g (f m r) r = m) (rounds : List (Fin 11)) :
    rounds.reverse.foldl g (rounds.foldl f m) = m := by
  induction rounds generalizing m with
  | nil => rfl
  | cons r rounds ih =>
    rw [List.foldl_cons, List.reverse_cons, List.foldl_append, ih, List.foldl_cons, List.foldl_nil, hround]

theorem dec_enc : dec (enc m w) w = m := by
  rw [dec, enc, addRoundKey_addRoundKey, invShiftRows_shiftRows, invSubBytes_subBytes]
  have hrounds := foldl_reverse_undoes_foldl (addRoundKey w 0 m) (inverseRound_forwardRound w) [1, 2, 3, 4, 5, 6, 7, 8, 9]
  exact (congrArg (addRoundKey w 0) hrounds).trans (addRoundKey_addRoundKey w 0 m)

theorem enc_dec : enc (dec m w) w = m := by
  rw [enc, dec, addRoundKey_addRoundKey]
  have hrounds := foldl_reverse_undoes_foldl (invSubBytes (invShiftRows (addRoundKey w 10 m))) (forwardRound_inverseRound w)
    [9, 8, 7, 6, 5, 4, 3, 2, 1]
  refine (congrArg (fun n => addRoundKey w 10 (shiftRows (subBytes n))) hrounds).trans ?_
  rw [subBytes_invSubBytes, shiftRows_invShiftRows, addRoundKey_addRoundKey]

/-! ### The block commands, alone and after another command that reads `W` -/

variable (s : State) (port : List HostAction)

theorem exec_encb : exec .encb s = .next (s.midTransform (enc s.st s.w) s.port) :=
  congrArg Host.Outcome.next (s.midTransform_of_keyed _ s.port)

theorem exec_decb : exec .decb s = .next (s.midTransform (dec s.st s.w) s.port) :=
  congrArg Host.Outcome.next (s.midTransform_of_keyed _ s.port)

theorem exec_encb_midTransform : exec .encb (s.midTransform m port) = .next (s.midTransform (enc m s.w) port) :=
  congrArg Host.Outcome.next (s.midTransform_keyed m _ port)

theorem exec_decb_midTransform : exec .decb (s.midTransform m port) = .next (s.midTransform (dec m s.w) port) :=
  congrArg Host.Outcome.next (s.midTransform_keyed m _ port)

end Sys2Proof.Machine
end

section
/-! The obligations on the block cipher. -/

open Sys2Proof Sys2Proof.Machine

/-- Settles O33: the rounds cancel pair by pair, and the second command flags nothing new. -/
theorem blockRoundTrip : Obligations.BlockRoundTrip := by
  unfold Obligations.BlockRoundTrip
  refine ⟨fun m w => ⟨dec_enc w m, enc_dec w m⟩, fun s => ⟨_, exec_encb s, ?_⟩, fun s => ⟨_, exec_decb s, ?_⟩⟩
  · rw [exec_decb_midTransform, dec_enc]
    rfl
  · rw [exec_encb_midTransform, enc_dec]
    rfl

/-- Settles O30: `Enc` is the rounds in order by definition; the example is computed. -/
theorem encbIsForwardTransform : Obligations.EncbIsForwardTransform := by
  unfold Obligations.EncbIsForwardTransform
  exact ⟨by decide, by decide +kernel, fun s => congrArg Host.Outcome.next (s.flagUninit_withSt_eq _)⟩

/-- Settles O31: `Dec` is the rounds in order by definition, and the example is that of `ENCB` undone. -/
theorem decbIsInverseTransform : Obligations.DecbIsInverseTransform := by
  unfold Obligations.DecbIsInverseTransform
  obtain ⟨-, hexample, -⟩ := encbIsForwardTransform
  exact ⟨by decide, by rw [← hexample, dec_enc], fun s => congrArg Host.Outcome.next (s.flagUninit_withSt_eq _)⟩

end

section
/-! The padding of a message (R171, R172): its values, and the padded message as a list. -/

namespace Sys2Proof.Machine

theorem lt_paddedLength (length : Nat) : length < 16 * encBlockCount length := by
  rw [encBlockCount]
  omega

theorem paddedLength_le (length : Nat) : 16 * encBlockCount length ≤ length + 16 := by
  rw [encBlockCount]
  omega

/-- The cast of a pad value to a byte does not truncate. -/
theorem lo8_toNat_of_le {n : Nat} (h : n ≤ 16) : (lo8 n).toNat = n :=
  BitVec.toNat_ofNat n 8 ▸ Nat.mod_eq_of_lt (by omega)

/-- The decrypt filter drops every pad value. -/
theorem keptByte_lo8_of_le {n : Nat} (h : n ≤ 16) : keptByte (lo8 n) = false := by
  rw [keptByte, lo8_toNat_of_le h]
  exact decide_eq_false (by omega)

theorem keptByte_paddedByte {s : State} {p : Nat} (h : s.ilen ≤ p) : keptByte (paddedByte s p) = false := by
  have hpad := paddedLength_le s.ilen
  rw [paddedByte, if_neg (by omega)]
  exact keptByte_lo8_of_le (by omega)

/-- What the decrypt filter keeps of a padded message is what it keeps of the text. -/
theorem filter_paddedBytes (s : State) :
    ((List.range (16 * encBlockCount s.ilen)).map (paddedByte s)).filter keptByte =
      ((List.range s.ilen).map s.readIbuf).filter keptByte := by
  obtain ⟨d, hd⟩ := Nat.exists_eq_add_of_lt (lt_paddedLength s.ilen)
  have htext : (List.range s.ilen).map (paddedByte s) = (List.range s.ilen).map s.readIbuf :=
    List.map_congr_left fun p hp => if_pos (List.mem_range.1 hp)
  have hpad : (((List.range (d + 1)).map (s.ilen + ·)).map (paddedByte s)).filter keptByte = [] := by
    simp [keptByte_paddedByte]
  rw [hd, Nat.add_assoc, List.range_add, List.map_append, List.filter_append, htext, hpad, List.append_nil]

end Sys2Proof.Machine
end

section
/-! The text codec as lists (R50, R175): a list of blocks is the list of their bytes, and what a buffer holds. -/

namespace Sys2Proof.Machine

theorem fromMatrix_eq_map (m : Block) : fromMatrix m = (List.finRange 16).map m.byte := rfl

/-- Cutting a byte sequence into blocks and listing the blocks gives the sequence back. -/
theorem flatMap_blocks (f : Nat → Byte) (n : Nat) :
    ((List.range n).flatMap fun b => fromMatrix (toMatrix fun k => f (16 * b + k.val))) = (List.range (16 * n)).map f := by
  induction n with
  | zero => rfl
  | succ n ih =>
    have hblock : (fromMatrix (toMatrix fun k => f (16 * n + k.val))) = ((List.range 16).map (16 * n + ·)).map f := by
      simp only [fromMatrix, toMatrix_byte]
      rfl
    rw [List.range_succ, List.flatMap_append, List.flatMap_singleton, ih, hblock, Nat.mul_succ, List.range_add, List.map_append]

/-- The message in `OBUF` after a message command is its output. -/
@[simp] theorem State.output_storeMessage (s : State) (out : List Byte) : (s.storeMessage out).output = out := by
  refine List.ext_getElem (by simp [State.output]) fun a _ ha => ?_
  simp [State.output, State.readObuf, Memory.read_holding, List.getD, ha]

/-- A message held in `IBUF` reads back as itself. -/
theorem State.holdsInput.map_readIbuf {s : State} {bytes : List Byte} (h : s.holdsInput bytes) :
    (List.range s.ilen).map s.readIbuf = bytes := by
  obtain ⟨hlen, hread⟩ := h
  refine List.ext_getElem (by simp [hlen]) fun a _ ha => ?_
  simpa using hread a bytes[a] (List.getElem?_eq_getElem ha)

end Sys2Proof.Machine
end

section
/-! What a message command reads (R173, R176, R177, R181): `W`, `ILEN` and the bytes of its blocks, and no other state. -/

namespace Sys2Proof.Machine

variable {s u : State}

theorem plainBlock_congr (hlen : u.ilen = s.ilen) (htext : ∀ a, a < s.ilen → u.readIbuf a = s.readIbuf a) (b : Nat) :
    plainBlock u b = plainBlock s b := by
  have hbyte (p : Nat) : paddedByte u p = paddedByte s p := by
    rw [paddedByte, paddedByte, hlen]
    exact if_ctx_congr Iff.rfl (htext p) fun _ => rfl
  simp only [plainBlock, hbyte]

theorem encOutput_congr (hw : u.w = s.w) (hlen : u.ilen = s.ilen) (htext : ∀ a, a < s.ilen → u.readIbuf a = s.readIbuf a) :
    encOutput u = encOutput s := by
  simp only [encOutput, plainBlock_congr hlen htext, hw, hlen]

theorem decOutput_congr (hw : u.w = s.w) (hlen : u.ilen = s.ilen)
    (htext : ∀ a, a < 16 * (s.ilen / 16) → u.readIbuf a = s.readIbuf a) : decOutput u = decOutput s := by
  have hblock (b : Nat) (hb : b ∈ List.range (decBlockCount s.ilen)) : cipherBlock u b = cipherBlock s b := by
    have hb' : b < s.ilen / 16 := List.mem_range.1 hb
    exact congrArg toMatrix (funext fun k => htext _ (by omega))
  rw [decOutput, decOutput, hlen, hw]
  exact congrArg (List.filter keptByte) (List.flatMap_congr fun b hb => by rw [hblock b hb])

end Sys2Proof.Machine
end

section
/-! The message commands (R176, R177, R210): the key option and the flags first, then the output is stored. -/

namespace Sys2Proof.Machine

/-! ### The key option and the flags as one change of `W`, `KCFG` and `ERR` -/

theorem ite_errSet (p : Prop) [Decidable p] (err : Byte) (f : ErrFlag) :
    (if p then err else errSet err f) = err ||| (if p then 0x00 else f.mask) := by
  split
  · exact (BitVec.or_zero).symm
  · rfl

/-- The key option (R127) as one change of the state. -/
theorem State.keyOption_eq (s : State) (klen : Byte) : s.keyOption klen = { s with
    w := if 16 ≤ klen.toNat then expand s.kin else s.w
    kcfg := if 16 ≤ klen.toNat then true else s.kcfg
    err := s.err ||| (if 1 ≤ klen.toNat ∧ klen.toNat ≤ 15 then 0x01 else 0x00) } := by
  rcases s.keyOption_cases klen with ⟨h0, hk⟩ | ⟨hlen, hk⟩ | ⟨h0, hshort, hk⟩
  · simp [hk, h0]
  · simp [hk, hlen, show ¬ klen.toNat ≤ 15 by omega, State.acceptKey]
  · simp [hk, show ¬ 16 ≤ klen.toNat by omega, show 1 ≤ klen.toNat ∧ klen.toNat ≤ 15 by omega, State.rejectKey, State.flag, errSet,
      ErrFlag.mask, ErrFlag.bit]

/-- The state after the key option and the `UNINIT` test, with which both message commands begin (R127, R205). -/
def State.keyReady (s : State) (klen : Byte) : State := (s.keyOption klen).flagUninit

variable (s : State) (klen : Byte)

theorem State.keyReady_eq : s.keyReady klen = { s with
    w := if 16 ≤ klen.toNat then expand s.kin else s.w
    kcfg := if 16 ≤ klen.toNat then true else s.kcfg
    err := s.err ||| (if 1 ≤ klen.toNat ∧ klen.toNat ≤ 15 then 0x01 else 0x00) |||
      (if (if 16 ≤ klen.toNat then true else s.kcfg) then 0x00 else 0x02) } := by
  rw [State.keyReady, State.keyOption_eq, State.flagUninit_eq, ite_errSet]
  rfl

@[simp] theorem State.keyReady_kin : (s.keyReady klen).kin = s.kin := by rw [State.keyReady_eq]
@[simp] theorem State.keyReady_lq : (s.keyReady klen).lq = s.lq := by rw [State.keyReady_eq]
@[simp] theorem State.keyReady_ilen : (s.keyReady klen).ilen = s.ilen := by rw [State.keyReady_eq]
@[simp] theorem State.keyReady_ibuf : (s.keyReady klen).ibuf = s.ibuf := by rw [State.keyReady_eq]
@[simp] theorem State.keyReady_port : (s.keyReady klen).port = s.port := by rw [State.keyReady_eq]

@[simp] theorem State.keyReady_w : (s.keyReady klen).w = if 16 ≤ klen.toNat then expand s.kin else s.w := by
  rw [State.keyReady_eq]

@[simp] theorem State.keyReady_kcfg : (s.keyReady klen).kcfg = if 16 ≤ klen.toNat then true else s.kcfg := by
  rw [State.keyReady_eq]

theorem State.keyReady_err : (s.keyReady klen).err =
    s.err ||| (if 1 ≤ klen.toNat ∧ klen.toNat ≤ 15 then 0x01 else 0x00) ||| (if (s.keyReady klen).kcfg then 0x00 else 0x02) := by
  rw [State.keyReady_eq]

@[simp] theorem State.keyReady_readIbuf (a : Nat) : (s.keyReady klen).readIbuf a = s.readIbuf a := by
  rw [State.keyReady_eq]
  rfl

/-! ### The flags that are not set -/

theorem State.errReserved_flagWhen (c : Bool) (f : ErrFlag) : errReserved (s.flagWhen c f).err = errReserved s.err := by
  cases c with
  | false => rfl
  | true => exact errReserved_errSet s.err f

theorem State.errHas_flagWhen (c : Bool) {f g : ErrFlag} (h : g ≠ f) : errHas (s.flagWhen c f).err g = errHas s.err g := by
  cases c with
  | false => rfl
  | true => simp [h]

theorem State.errReserved_keyReady : errReserved (s.keyReady klen).err = errReserved s.err := by
  refine (State.errReserved_flagWhen _ _ _).trans ?_
  rcases s.keyOption_cases klen with ⟨-, hk⟩ | ⟨-, hk⟩ | ⟨-, -, hk⟩
  · rw [hk]
  · rw [hk, State.acceptKey_err]
  · rw [hk, State.rejectKey_err, errReserved_errSet]

theorem State.errHas_keyReady {g : ErrFlag} (hinvkey : g ≠ .invkey) (huninit : g ≠ .uninit) :
    errHas (s.keyReady klen).err g = errHas s.err g := by
  refine (State.errHas_flagWhen _ _ huninit).trans ?_
  rcases s.keyOption_cases klen with ⟨-, hk⟩ | ⟨-, hk⟩ | ⟨-, -, hk⟩
  · rw [hk]
  · rw [hk, State.acceptKey_err]
  · rw [hk, State.rejectKey_err, errHas_errSet, decide_eq_false hinvkey, Bool.or_false]

/-! ### The output -/

theorem length_decOutput_le : (decOutput s).length ≤ 16 * decBlockCount s.ilen :=
  (List.length_filter_le _ _).trans_eq (length_blocks _ _)

theorem exec_encm : exec (.encm klen) s = .next ((s.keyReady klen).storeMessage (encOutput (s.keyReady klen))) := rfl

/-- The `MISALIGN` test changes nothing that the output is made from. -/
theorem exec_decm : exec (.decm klen) s = .next ((s.keyReady klen).flagMisalign.storeMessage (decOutput (s.keyReady klen))) := by
  have hout : decOutput (s.keyReady klen).flagMisalign = decOutput (s.keyReady klen) :=
    decOutput_congr (by simp) (by simp) (by simp [State.readIbuf])
  rw [← hout]
  rfl

/-- `DECM` may flag `MISALIGN`, `ENCM` does not (R206); otherwise they differ only in their output. -/
theorem exec_message {s t : State} {klen : Byte} {i : Instr} (hi : i ∈ [Instr.encm klen, .decm klen]) (h : exec i s = .next t) :
    ∃ c out, t = ((s.keyReady klen).flagWhen c .misalign).storeMessage out ∧ (i = .encm klen → c = false) := by
  simp only [List.mem_cons, List.not_mem_nil, or_false] at hi
  rcases hi with rfl | rfl
  · exact ⟨false, _, (Host.Outcome.next.inj h).symm, fun _ => rfl⟩
  · exact ⟨_, _, (Host.Outcome.next.inj h).symm, nofun⟩

/-! ### The same command on another input buffer -/

theorem State.flagWhen_withIbuf (c : Bool) (f : ErrFlag) (other : Memory) :
    State.flagWhen { s with ibuf := other } c f = { s.flagWhen c f with ibuf := other } := by
  cases c <;> rfl

theorem State.keyReady_withIbuf (other : Memory) :
    State.keyReady { s with ibuf := other } klen = { s.keyReady klen with ibuf := other } := by
  rw [State.keyReady_eq, State.keyReady_eq]

theorem exec_encm_withIbuf (other : Memory) (htext : ∀ a, a < s.ilen → other.read .ibuf a = s.readIbuf a) :
    ∃ t, exec (.encm klen) s = .next t ∧ exec (.encm klen) { s with ibuf := other } = .next { t with ibuf := other } := by
  refine ⟨_, exec_encm s klen, ?_⟩
  have hout : encOutput { s.keyReady klen with ibuf := other } = encOutput (s.keyReady klen) :=
    encOutput_congr rfl rfl (by simpa [State.readIbuf] using htext)
  rw [exec_encm, State.keyReady_withIbuf, hout]
  rfl

theorem exec_decm_withIbuf (other : Memory) (htext : ∀ a, a < 16 * (s.ilen / 16) → other.read .ibuf a = s.readIbuf a) :
    ∃ t, exec (.decm klen) s = .next t ∧ exec (.decm klen) { s with ibuf := other } = .next { t with ibuf := other } := by
  refine ⟨_, exec_decm s klen, ?_⟩
  have hout : decOutput { s.keyReady klen with ibuf := other } = decOutput (s.keyReady klen) :=
    decOutput_congr rfl rfl (by simpa [State.readIbuf] using htext)
  have hflag : State.flagMisalign { s.keyReady klen with ibuf := other } = { (s.keyReady klen).flagMisalign with ibuf := other } :=
    State.flagWhen_withIbuf _ _ _ other
  rw [exec_decm, State.keyReady_withIbuf, hout, hflag]
  rfl

/-! ### The message round trip -/

/-- Block `b` of an input that is the output of an encryption is the transform of block `b` of the padded message. -/
theorem cipherBlock_of_encOutput {s u : State} (h : u.holdsInput (encOutput s)) {b : Nat} (hb : b < encBlockCount s.ilen) :
    cipherBlock u b = enc (plainBlock s b) s.w := by
  obtain ⟨-, hread⟩ := h
  have hbyte (k : Fin 16) : u.readIbuf (16 * b + k.val) = (enc (plainBlock s b) s.w).byte k :=
    hread _ _ (encOutput_getElem? s hb k)
  simp only [cipherBlock, hbyte, toMatrix_of_byte]

/-- Decrypting the output of an encryption under the same `W` gives what the filter keeps of the text (R178). -/
theorem decOutput_of_encOutput {s u : State} (hw : u.w = s.w) (h : u.holdsInput (encOutput s)) :
    decOutput u = ((List.range s.ilen).map s.readIbuf).filter keptByte := by
  have hcount : decBlockCount u.ilen = encBlockCount s.ilen := by
    obtain ⟨hlen, -⟩ := h
    rw [hlen, length_encOutput]
    exact Nat.mul_div_cancel_left _ (by omega)
  have hblock (b : Nat) (hb : b ∈ List.range (encBlockCount s.ilen)) :
      fromMatrix (dec (cipherBlock u b) u.w) = fromMatrix (plainBlock s b) := by
    rw [cipherBlock_of_encOutput h (List.mem_range.1 hb), hw, dec_enc]
  calc decOutput u
    _ = ((List.range (encBlockCount s.ilen)).flatMap fun b => fromMatrix (plainBlock s b)).filter keptByte := by
      rw [decOutput, hcount, List.flatMap_congr hblock]
    _ = ((List.range (16 * encBlockCount s.ilen)).map (paddedByte s)).filter keptByte :=
      congrArg (List.filter keptByte) (flatMap_blocks (paddedByte s) _)
    _ = ((List.range s.ilen).map s.readIbuf).filter keptByte := filter_paddedBytes s

end Sys2Proof.Machine
end

section
/-! The obligations on the message codec. -/

open Sys2Proof Sys2Proof.Machine

/-- Settles O34: the padded length is the next multiple of 16 above the length. -/
theorem padBytesAreOneToSixteen : Obligations.PadBytesAreOneToSixteen := by
  unfold Obligations.PadBytesAreOneToSixteen
  intro length p
  refine ⟨lt_paddedLength length, paddedLength_le length, fun hp hlt => ?_⟩
  have hpad := paddedLength_le length
  have hle : 16 * encBlockCount length - p ≤ 16 := by omega
  exact ⟨by omega, hle, lo8_toNat_of_le hle, keptByte_lo8_of_le hle⟩

/-- Settles O49: the flags of a message command are `INVKEY`, `UNINIT` and, for `DECM`, `MISALIGN`. -/
theorem frameOfMessageCommands : Obligations.FrameOfMessageCommands := by
  unfold Obligations.FrameOfMessageCommands
  intro klen i s t hi hexec
  obtain ⟨hkin, hilen, hibuf, hport⟩ := exec_keeps_hostData hexec
  obtain ⟨c, out, rfl, hencm⟩ := exec_message hi hexec
  refine ⟨hkin, by simp, hilen, hibuf, hport, ?_, ?_, fun hi => ?_, fun hshort => ⟨?_, ?_⟩⟩
  · exact (State.errReserved_flagWhen _ _ _).trans (s.errReserved_keyReady klen)
  · exact (State.errHas_flagWhen _ _ (by decide)).trans (s.errHas_keyReady klen (by decide) (by decide))
  · rw [hencm hi]
    exact s.errHas_keyReady klen (by decide) (by decide)
  · rw [State.storeMessage_w, State.flagWhen_w, State.keyReady_w, if_neg (by omega)]
  · rw [State.storeMessage_kcfg, State.flagWhen_kcfg, State.keyReady_kcfg, if_neg (by omega)]

/-- Settles O35: the bytes of `OBUF` are those of the output, whose blocks are made from the state after the key option. -/
theorem encmEncryptsPaddedMessage : Obligations.EncmEncryptsPaddedMessage := by
  unfold Obligations.EncmEncryptsPaddedMessage
  refine ⟨⟨_, rfl, by decide +kernel⟩, fun klen s => ⟨_, decode_encode (i := .encm klen) rfl, exec_encm s klen, s.keyReady_w klen,
    s.keyReady_kcfg klen, s.keyReady_err klen, ?_, fun b hb k => ?_, s.keyReady_kin klen, s.keyReady_lq klen, s.keyReady_ilen klen,
    fun a => ?_, s.keyReady_port klen⟩⟩
  · rw [State.storeMessage_olen, length_encOutput, State.keyReady_ilen]
    rfl
  · have hplain : plainBlock (s.keyReady klen) b = plainBlock s b := plainBlock_congr (by simp) (by simp) b
    refine (State.readObuf_encryptMessage (s.keyReady klen) (by simpa [encBlockCount] using hb) k).trans ?_
    rw [hplain]
    rfl
  · simp [State.readIbuf]

/-- Settles O36: the bytes kept of the transformed blocks are stored, and filtering does not make the list longer. -/
theorem decmDecryptsAndFilters : Obligations.DecmDecryptsAndFilters := by
  unfold Obligations.DecmDecryptsAndFilters
  refine ⟨⟨_, rfl, by decide +kernel⟩, fun klen s => ⟨_, decode_encode (i := .decm klen) rfl, exec_decm s klen, ?_⟩⟩
  refine ⟨?_, ?_, ?_, ?_, ?_, ?_, by simp, by simp, by simp, by simp [State.readIbuf], by simp⟩
  · exact (State.flagMisalign_w _).trans (s.keyReady_w klen)
  · exact (State.flagMisalign_kcfg _).trans (s.keyReady_kcfg klen)
  · rw [State.storeMessage_err, State.flagMisalign_err, State.storeMessage_kcfg, State.flagMisalign_kcfg, State.keyReady_ilen, ite_errSet]
    exact congrArg (· ||| _) (s.keyReady_err klen)
  · rw [State.output_storeMessage, State.storeMessage_w, State.flagMisalign_w, decOutput, State.keyReady_ilen]
    simp only [cipherBlock, State.keyReady_readIbuf, fromMatrix_eq_map]
    rfl
  · rw [State.output_storeMessage, State.storeMessage_olen]
  · rw [State.storeMessage_olen, ← s.keyReady_ilen klen]
    exact length_decOutput_le _

/-- Settles O39: neither command reads the buffer past its message. -/
theorem bytesPastMessageNeverMatter : Obligations.BytesPastMessageNeverMatter := by
  unfold Obligations.BytesPastMessageNeverMatter
  exact fun s other klen => ⟨exec_encm_withIbuf s klen other, exec_decm_withIbuf s klen other⟩

/-- Settles O37: decryption undoes encryption block by block, and the filter drops the padding with the low bytes of the text. -/
theorem messageRoundTrip : Obligations.MessageRoundTrip := by
  unfold Obligations.MessageRoundTrip
  intro s klen text htext
  refine ⟨_, exec_encm s klen, fun u hw hinput => ⟨_, exec_decm u 0, ?_⟩⟩
  rw [State.output_storeMessage] at hinput ⊢
  have hinput' : (u.keyReady 0).holdsInput (encOutput (s.keyReady klen)) := by
    simpa [State.holdsInput] using hinput
  have hw' : (u.keyReady 0).w = (s.keyReady klen).w := (u.keyReady_w 0).trans hw
  have htext' : (s.keyReady klen).holdsInput text := by
    simpa [State.holdsInput] using htext
  exact (decOutput_of_encOutput hw' hinput').trans (congrArg (List.filter keptByte) htext'.map_readIbuf)

end

section
/-! The words with the `OP` value of `CLRERR` (R74, R195): format Z accepts `ARG = 0` only. -/

namespace Sys2Proof

theorem decode_clrerr_op (arg : Byte) : decode (0x06#8 ++ arg) = formatZ arg .clrerr := by
  rw [decode, opField_append, argField_append]
  rfl

theorem formatZ_of_ne_zero {arg : Byte} (h : arg ≠ 0) (i : Instr) : formatZ arg i = .illegal .argNotZero :=
  if_neg fun hzero => h (BitVec.eq_of_toNat_eq hzero)

end Sys2Proof
end

section
/-! The obligation on `CLRERR`. -/

open Sys2Proof Sys2Proof.Machine

/-- Settles O42: a non-zero `ARG` is refused by format Z, and the illegal word only flags. -/
theorem clrerrClearsAllFlags : Obligations.ClrerrClearsAllFlags := by
  unfold Obligations.ClrerrClearsAllFlags
  refine ⟨fun _ => rfl, decode_encode (i := .clrerr) rfl, fun arg _ rest harg => ?_⟩
  have hword : decode (0x06#8 ++ arg) = .illegal .argNotZero := (decode_clrerr_op arg).trans (formatZ_of_ne_zero harg .clrerr)
  exact illegalWordOnlyFlags _ _ _ rest rfl hword

end

section
/-! The conditions that flag each bit of `ERR` (R204 to R207), and that a command sets a flag exactly by its condition. -/

namespace Sys2Proof.Machine

/-- The command meets the condition of the flag's rule: R204, R205 or R206. No well-formed command meets one of `ILLCMD` (R207). -/
@[simp] def State.flagCondition (s : State) (i : Instr) : ErrFlag → Prop
  | .invkey => (∃ klen : Byte, i = .setkey klen ∧ klen.toNat < 16) ∨
      ∃ klen : Byte, (i = .encm klen ∨ i = .decm klen) ∧ 1 ≤ klen.toNat ∧ klen.toNat ≤ 15
  | .uninit => s.kcfg = false ∧ (i = .encb ∨ i = .decb ∨ (∃ r : Byte, i = .ark r) ∨
      ∃ klen : Byte, (i = .encm klen ∨ i = .decm klen) ∧ klen.toNat < 16)
  | .misalign => s.ilen % 16 ≠ 0 ∧ ∃ klen : Byte, i = .decm klen
  | .illcmd => False

/-! ### What each flagging operation sets -/

section
variable (s : State) (klen : Byte) (f : ErrFlag)

theorem State.errHas_flagWhen_iff (c : Bool) (g : ErrFlag) :
    errHas (s.flagWhen c g).err f = true ↔ errHas s.err f = true ∨ (f = g ∧ c = true) := by
  cases c <;> simp

theorem State.errHas_flagUninit_iff : errHas s.flagUninit.err f = true ↔ errHas s.err f = true ∨ (f = .uninit ∧ s.kcfg = false) := by
  rw [State.flagUninit, State.errHas_flagWhen_iff, uninitCondition, Bool.not_eq_true']

theorem State.errHas_flagMisalign_iff :
    errHas s.flagMisalign.err f = true ↔ errHas s.err f = true ∨ (f = .misalign ∧ s.ilen % 16 ≠ 0) := by
  rw [State.flagMisalign, State.errHas_flagWhen_iff, misalignCondition, decide_eq_true_iff]

theorem State.errHas_keyOption_iff : errHas (s.keyOption klen).err f = true ↔
    errHas s.err f = true ∨ (f = .invkey ∧ 1 ≤ klen.toNat ∧ klen.toNat ≤ 15) := by
  rcases s.keyOption_cases klen with ⟨h0, hk⟩ | ⟨hlen, hk⟩ | ⟨h0, hshort, hk⟩
  · simp [hk, h0]
  · simp [hk, show ¬ klen.toNat ≤ 15 by omega]
  · simp [hk, show 1 ≤ klen.toNat ∧ klen.toNat ≤ 15 by omega]

theorem State.keyOption_kcfg_eq_false_iff : (s.keyOption klen).kcfg = false ↔ s.kcfg = false ∧ klen.toNat < 16 := by
  rw [State.keyOption_eq]
  split
  · exact iff_of_false nofun (by omega)
  · exact (and_iff_left (by omega)).symm

/-- The key option comes first, so a valid key rules out `UNINIT` (R210). -/
theorem State.errHas_keyReady_iff : errHas (s.keyReady klen).err f = true ↔ (errHas s.err f = true ∨
    (f = .invkey ∧ 1 ≤ klen.toNat ∧ klen.toNat ≤ 15)) ∨ (f = .uninit ∧ s.kcfg = false ∧ klen.toNat < 16) := by
  rw [State.keyReady, State.errHas_flagUninit_iff, State.errHas_keyOption_iff, State.keyOption_kcfg_eq_false_iff]

end

/-! ### What each command sets -/

/-- After a well-formed command a flag is set exactly if it was kept or the command meets the flag's condition. -/
theorem exec_errHas_iff {i : Instr} {s t : State} (hwf : i.wellFormed = true) (h : exec i s = .next t) (f : ErrFlag) :
    errHas t.err f = true ↔ (errHas s.err f = true ∧ i ≠ .clrerr) ∨ s.flagCondition i f := by
  cases i with
  | clrerr =>
    obtain rfl := Host.Outcome.next.inj h
    have hclear : errHas 0x00 f = false := errHas_zero f
    rw [hclear]
    cases f <;> simp
  | setkey klen =>
    rcases Nat.lt_or_ge klen.toNat 16 with hk | hk
    · obtain rfl := Host.Outcome.next.inj ((exec_setkey_short s hk).symm.trans h)
      cases f <;> simp [hk]
    · obtain rfl := Host.Outcome.next.inj ((exec_setkey_valid s hk).symm.trans h)
      cases f <;> simp [hk]
  | encm klen =>
    obtain rfl := Host.Outcome.next.inj ((exec_encm s klen).symm.trans h)
    rw [State.storeMessage_err, State.errHas_keyReady_iff]
    cases f <;> simp
  | decm klen =>
    obtain rfl := Host.Outcome.next.inj ((exec_decm s klen).symm.trans h)
    rw [State.storeMessage_err, State.errHas_flagMisalign_iff, State.errHas_keyReady_iff, State.keyReady_ilen]
    cases f <;> simp
  | encb | decb =>
    obtain rfl := Host.Outcome.next.inj h
    rw [State.withSt_err, State.errHas_flagUninit_iff]
    cases f <;> simp
  | ark r =>
    obtain rfl := Host.Outcome.next.inj ((exec_ark (roundNumber?_eq (of_decide_eq_true hwf)) s).symm.trans h)
    rw [State.withSt_err, State.errHas_flagUninit_iff]
    cases f <;> simp
  | lrcon n =>
    obtain rfl := Host.Outcome.next.inj ((exec_lrcon (rconIndex?_eq (of_decide_eq_true hwf)) s).symm.trans h)
    cases f <;> simp
  | subb | shrow | mixc | isubb | ishrow | imixc | lsbox | lisbox | lmul2 | lmul3 | lmul9 | lmul11 | lmul13 | lmul14 =>
    obtain rfl := Host.Outcome.next.inj h
    cases f <;> simp

/-! ### What a command word leaves pending -/

theorem State.runWord_keeps_port {s t : State} {word : CmdWord} (h : s.runWord word = .next t) : t.port = s.port := by
  rcases State.runWord_cases h with ⟨i, -, hexec⟩ | ⟨why, -, rfl⟩
  · obtain ⟨-, -, -, hport⟩ := exec_keeps_hostData hexec
    exact hport
  · exact s.illegalCommand_port

end Sys2Proof.Machine
end

section
/-! The obligations on the exceptional conditions. -/

open Sys2Proof Sys2Proof.Machine

/-- Settles O40, flag by flag: no condition sets `ILLCMD`. -/
theorem flagsSetExactlyByTheirConditions : Obligations.FlagsSetExactlyByTheirConditions := by
  unfold Obligations.FlagsSetExactlyByTheirConditions
  intro i s t hwf h
  have hflag := exec_errHas_iff hwf h
  exact ⟨hflag .invkey, hflag .uninit, hflag .misalign, (hflag .illcmd).trans (or_iff_left id)⟩

/-- Settles O50: the step takes the word and runs it, and running a word, legal or not, completes and leaves the port alone. -/
theorem everyCommandWordCompletes : Obligations.EveryCommandWordCompletes := by
  unfold Obligations.EveryCommandWordCompletes
  intro s word rest
  obtain ⟨t, ht⟩ := State.runWord_next { s with port := rest } word
  exact ⟨t, ht, State.runWord_keeps_port ht⟩

end
